-- ==== Sys2Proof/Word.lean ====
section
/-! DEFINITION. The word types of the CORE, one per width the spec names (00_scope.md R6, R9, R10). Every value is
unsigned. -/

namespace Sys2Proof

/-- A byte: a general register, a memory cell, a timer (R21, R30, R32, R33). -/
abbrev Byte := BitVec 8

/-- An instruction word (R91). -/
abbrev Word := BitVec 16

/-- A 12-bit address: `I`, `PC`, a stack entry, a field NNN (R25, R26, R28, R91). -/
abbrev Addr := BitVec 12

/-- A 4-bit register selector: a field X or Y, or `wait_reg` (R35, R91). -/
abbrev RegIdx := BitVec 4

/-- A logical key code 0x0..0xF (R34). -/
abbrev KeyCode := BitVec 4

/-- The flag register VF is `V[15]` (R11, R23). -/
abbrev regF : RegIdx := 0xF#4

end Sys2Proof
end

