-- ==== Sys2Proof/Syntax.lean ====
section
/-! DEFINITION. The instructions: one constructor per row of the opcode table (30_encoding.md R95), its arguments the
fields of the row (R91, R92). There are no aliases and no pseudo-instructions (R111). -/

namespace Sys2Proof

/-- The 34 instructions of R95. `seReg` and `sneReg` carry the low nibble `n` of their word beside X and Y: it is 0,
and any value when `LOOSE_5_9` is true (R97), and a fault record shows the word as it was fetched (DESIGN CHOICE, safe,
log 15). -/
inductive Instr where
  | cls                          -- 00E0  CLS
  | ret                          -- 00EE  RET
  | jp (nnn : Addr)              -- 1NNN  JP NNN
  | call (nnn : Addr)            -- 2NNN  CALL NNN
  | seImm (x : RegIdx) (nn : Byte)        -- 3XNN  SE VX, NN
  | sneImm (x : RegIdx) (nn : Byte)       -- 4XNN  SNE VX, NN
  | seReg (x y : RegIdx) (n : BitVec 4)   -- 5XY0  SE VX, VY
  | ldImm (x : RegIdx) (nn : Byte)        -- 6XNN  LD VX, NN
  | addImm (x : RegIdx) (nn : Byte)       -- 7XNN  ADD VX, NN
  | ldReg (x y : RegIdx)         -- 8XY0  LD VX, VY
  | orReg (x y : RegIdx)         -- 8XY1  OR VX, VY
  | andReg (x y : RegIdx)        -- 8XY2  AND VX, VY
  | xorReg (x y : RegIdx)        -- 8XY3  XOR VX, VY
  | addReg (x y : RegIdx)        -- 8XY4  ADD VX, VY
  | subReg (x y : RegIdx)        -- 8XY5  SUB VX, VY
  | shr (x y : RegIdx)           -- 8XY6  SHR VX, VY
  | subn (x y : RegIdx)          -- 8XY7  SUBN VX, VY
  | shl (x y : RegIdx)           -- 8XYE  SHL VX, VY
  | sneReg (x y : RegIdx) (n : BitVec 4)  -- 9XY0  SNE VX, VY
  | ldI (nnn : Addr)             -- ANNN  LD I, NNN
  | jpV0 (nnn : Addr)            -- BNNN  JP V0, NNN
  | rnd (x : RegIdx) (nn : Byte)          -- CXNN  RND VX, NN
  | drw (x y : RegIdx) (n : BitVec 4)     -- DXYN  DRW VX, VY, N
  | skp (x : RegIdx)             -- EX9E  SKP VX
  | sknp (x : RegIdx)            -- EXA1  SKNP VX
  | ldVxDt (x : RegIdx)          -- FX07  LD VX, DT
  | ldVxK (x : RegIdx)           -- FX0A  LD VX, K
  | ldDtVx (x : RegIdx)          -- FX15  LD DT, VX
  | ldStVx (x : RegIdx)          -- FX18  LD ST, VX
  | addI (x : RegIdx)            -- FX1E  ADD I, VX
  | ldF (x : RegIdx)             -- FX29  LD F, VX
  | ldB (x : RegIdx)             -- FX33  LD B, VX
  | ldMemVx (x : RegIdx)         -- FX55  LD [I], VX
  | ldVxMem (x : RegIdx)         -- FX65  LD VX, [I]
deriving DecidableEq, Repr

end Sys2Proof
end

