-- ==== Sys2Proof/WellFormed.lean ====
section
/-! DEFINITION. Which terms of `Instr` are instructions of the machine. Every value of X, Y, N, NN and NNN is legal
(30_encoding.md R101); the one check is the low nibble of 5XY0 and 9XY0, which is 0 unless `LOOSE_5_9` is true (R97). -/

namespace Sys2Proof

/-- `i` is an instruction of the machine whose `LOOSE_5_9` is `loose`. -/
def Instr.wf (loose : Bool) : Instr → Bool
  | .seReg _ _ n => loose || n == 0#4
  | .sneReg _ _ n => loose || n == 0#4
  | _ => true

end Sys2Proof
end

