-- ==== Sys2Proof/Decode.lean ====
section
/-! DEFINITION. Decoding an instruction word (30_encoding.md R91 to R100), the encoder written from the same table, and
the opcode table itself as rows of match and mask (R95). -/

namespace Sys2Proof

/-! ## Fields (R91) -/

/-- The primary opcode, bits 15..12. -/
def opField (w : Word) : BitVec 4 := w.extractLsb' 12 4

/-- The register selector X, bits 11..8. -/
def xField (w : Word) : RegIdx := w.extractLsb' 8 4

/-- The register selector Y, bits 7..4. -/
def yField (w : Word) : RegIdx := w.extractLsb' 4 4

/-- The low nibble N, bits 3..0. -/
def nField (w : Word) : BitVec 4 := w.extractLsb' 0 4

/-- The low byte NN, bits 7..0. -/
def nnField (w : Word) : Byte := w.extractLsb' 0 8

/-- The address NNN, bits 11..0. -/
def nnnField (w : Word) : Addr := w.extractLsb' 0 12

/-- The word of two consecutive bytes: the one at the lower address is bits 15..8 (R65, R90). -/
def wordOfBytes (hi lo : Byte) : Word := hi ++ lo

/-- The byte of a word at the lower address (R65). -/
def hiByte (w : Word) : Byte := w.extractLsb' 8 8

/-- The byte of a word at the higher address (R65). -/
def loByte (w : Word) : Byte := w.extractLsb' 0 8

/-! ## Decode (R94) -/

/-- Why bytes are not an instruction. -/
inductive Reject where
  /-- the word selects no row of the opcode table (R96) -/
  | unknownOpcode (w : Word)
  /-- fewer than two bytes are left (every instruction is two bytes, R99) -/
  | truncated
deriving DecidableEq, Repr

/-- Group 8 of R94: dispatch on the low nibble. -/
def decodeGroup8 (w : Word) : Except Reject Instr :=
  let x := xField w
  let y := yField w
  match (nField w).toNat with
  | 0x0 => .ok (.ldReg x y)
  | 0x1 => .ok (.orReg x y)
  | 0x2 => .ok (.andReg x y)
  | 0x3 => .ok (.xorReg x y)
  | 0x4 => .ok (.addReg x y)
  | 0x5 => .ok (.subReg x y)
  | 0x6 => .ok (.shr x y)
  | 0x7 => .ok (.subn x y)
  | 0xE => .ok (.shl x y)
  | _ => .error (.unknownOpcode w)

/-- Group E of R94: dispatch on the low byte. -/
def decodeGroupE (w : Word) : Except Reject Instr :=
  let x := xField w
  match (nnField w).toNat with
  | 0x9E => .ok (.skp x)
  | 0xA1 => .ok (.sknp x)
  | _ => .error (.unknownOpcode w)

/-- Group F of R94: dispatch on the low byte. -/
def decodeGroupF (w : Word) : Except Reject Instr :=
  let x := xField w
  match (nnField w).toNat with
  | 0x07 => .ok (.ldVxDt x)
  | 0x0A => .ok (.ldVxK x)
  | 0x15 => .ok (.ldDtVx x)
  | 0x18 => .ok (.ldStVx x)
  | 0x1E => .ok (.addI x)
  | 0x29 => .ok (.ldF x)
  | 0x33 => .ok (.ldB x)
  | 0x55 => .ok (.ldMemVx x)
  | 0x65 => .ok (.ldVxMem x)
  | _ => .error (.unknownOpcode w)

/-- `Decode(w)` of R94, in a machine whose `LOOSE_5_9` is `loose`: the instruction of the row the word selects, or the
rejection of the word by name. -/
def decode (loose : Bool) (w : Word) : Except Reject Instr :=
  match (opField w).toNat with
  | 0x0 =>
    if w = 0x00E0#16 then .ok .cls
    else if w = 0x00EE#16 then .ok .ret
    else .error (.unknownOpcode w)
  | 0x1 => .ok (.jp (nnnField w))
  | 0x2 => .ok (.call (nnnField w))
  | 0x3 => .ok (.seImm (xField w) (nnField w))
  | 0x4 => .ok (.sneImm (xField w) (nnField w))
  | 0x5 =>
    if nField w = 0#4 ∨ loose = true then .ok (.seReg (xField w) (yField w) (nField w))
    else .error (.unknownOpcode w)
  | 0x6 => .ok (.ldImm (xField w) (nnField w))
  | 0x7 => .ok (.addImm (xField w) (nnField w))
  | 0x8 => decodeGroup8 w
  | 0x9 =>
    if nField w = 0#4 ∨ loose = true then .ok (.sneReg (xField w) (yField w) (nField w))
    else .error (.unknownOpcode w)
  | 0xA => .ok (.ldI (nnnField w))
  | 0xB => .ok (.jpV0 (nnnField w))
  | 0xC => .ok (.rnd (xField w) (nnField w))
  | 0xD => .ok (.drw (xField w) (yField w) (nField w))
  | 0xE => decodeGroupE w
  | _ => decodeGroupF w

/-- Decoding at the head of a list of bytes: the instruction and the bytes after it. -/
def decodeBytes (loose : Bool) : List Byte → Except Reject (Instr × List Byte)
  | hi :: lo :: rest =>
    match decode loose (wordOfBytes hi lo) with
    | .ok i => .ok (i, rest)
    | .error r => .error r
  | _ => .error .truncated

/-! ## Encode (R92, R95) -/

/-- Format XNN of R92. -/
def encodeXNN (op : BitVec 4) (x : RegIdx) (nn : Byte) : Word := op ++ (x ++ nn)

/-- Formats XY0, XYn and XYN of R92. -/
def encodeXYN (op : BitVec 4) (x y : RegIdx) (n : BitVec 4) : Word := op ++ (x ++ (y ++ n))

/-- Format NNN of R92. -/
def encodeNNN (op : BitVec 4) (nnn : Addr) : Word := op ++ nnn

/-- The word of an instruction (R92, R95). -/
def encode : Instr → Word
  | .cls => 0x00E0#16
  | .ret => 0x00EE#16
  | .jp nnn => encodeNNN 0x1#4 nnn
  | .call nnn => encodeNNN 0x2#4 nnn
  | .seImm x nn => encodeXNN 0x3#4 x nn
  | .sneImm x nn => encodeXNN 0x4#4 x nn
  | .seReg x y n => encodeXYN 0x5#4 x y n
  | .ldImm x nn => encodeXNN 0x6#4 x nn
  | .addImm x nn => encodeXNN 0x7#4 x nn
  | .ldReg x y => encodeXYN 0x8#4 x y 0x0#4
  | .orReg x y => encodeXYN 0x8#4 x y 0x1#4
  | .andReg x y => encodeXYN 0x8#4 x y 0x2#4
  | .xorReg x y => encodeXYN 0x8#4 x y 0x3#4
  | .addReg x y => encodeXYN 0x8#4 x y 0x4#4
  | .subReg x y => encodeXYN 0x8#4 x y 0x5#4
  | .shr x y => encodeXYN 0x8#4 x y 0x6#4
  | .subn x y => encodeXYN 0x8#4 x y 0x7#4
  | .shl x y => encodeXYN 0x8#4 x y 0xE#4
  | .sneReg x y n => encodeXYN 0x9#4 x y n
  | .ldI nnn => encodeNNN 0xA#4 nnn
  | .jpV0 nnn => encodeNNN 0xB#4 nnn
  | .rnd x nn => encodeXNN 0xC#4 x nn
  | .drw x y n => encodeXYN 0xD#4 x y n
  | .skp x => encodeXNN 0xE#4 x 0x9E#8
  | .sknp x => encodeXNN 0xE#4 x 0xA1#8
  | .ldVxDt x => encodeXNN 0xF#4 x 0x07#8
  | .ldVxK x => encodeXNN 0xF#4 x 0x0A#8
  | .ldDtVx x => encodeXNN 0xF#4 x 0x15#8
  | .ldStVx x => encodeXNN 0xF#4 x 0x18#8
  | .addI x => encodeXNN 0xF#4 x 0x1E#8
  | .ldF x => encodeXNN 0xF#4 x 0x29#8
  | .ldB x => encodeXNN 0xF#4 x 0x33#8
  | .ldMemVx x => encodeXNN 0xF#4 x 0x55#8
  | .ldVxMem x => encodeXNN 0xF#4 x 0x65#8

/-! ## The opcode table as data (R95) -/

/-- A row of R95: a word `w` selects it when `w AND mask = mtch`. -/
structure Row where
  mtch : Word
  mask : Word
deriving DecidableEq, Repr

/-- A word selects a row (R95). -/
def Row.selects (r : Row) (w : Word) : Bool := (w &&& r.mask) == r.mtch

/-- The row of an instruction: columns match and mask of R95, with the masks of rows 7 and 19 that `LOOSE_5_9` gives
(R97). -/
def rowOf (loose : Bool) : Instr → Row
  | .cls => ⟨0x00E0#16, 0xFFFF#16⟩
  | .ret => ⟨0x00EE#16, 0xFFFF#16⟩
  | .jp _ => ⟨0x1000#16, 0xF000#16⟩
  | .call _ => ⟨0x2000#16, 0xF000#16⟩
  | .seImm _ _ => ⟨0x3000#16, 0xF000#16⟩
  | .sneImm _ _ => ⟨0x4000#16, 0xF000#16⟩
  | .seReg _ _ _ => ⟨0x5000#16, if loose then 0xF000#16 else 0xF00F#16⟩
  | .ldImm _ _ => ⟨0x6000#16, 0xF000#16⟩
  | .addImm _ _ => ⟨0x7000#16, 0xF000#16⟩
  | .ldReg _ _ => ⟨0x8000#16, 0xF00F#16⟩
  | .orReg _ _ => ⟨0x8001#16, 0xF00F#16⟩
  | .andReg _ _ => ⟨0x8002#16, 0xF00F#16⟩
  | .xorReg _ _ => ⟨0x8003#16, 0xF00F#16⟩
  | .addReg _ _ => ⟨0x8004#16, 0xF00F#16⟩
  | .subReg _ _ => ⟨0x8005#16, 0xF00F#16⟩
  | .shr _ _ => ⟨0x8006#16, 0xF00F#16⟩
  | .subn _ _ => ⟨0x8007#16, 0xF00F#16⟩
  | .shl _ _ => ⟨0x800E#16, 0xF00F#16⟩
  | .sneReg _ _ _ => ⟨0x9000#16, if loose then 0xF000#16 else 0xF00F#16⟩
  | .ldI _ => ⟨0xA000#16, 0xF000#16⟩
  | .jpV0 _ => ⟨0xB000#16, 0xF000#16⟩
  | .rnd _ _ => ⟨0xC000#16, 0xF000#16⟩
  | .drw _ _ _ => ⟨0xD000#16, 0xF000#16⟩
  | .skp _ => ⟨0xE09E#16, 0xF0FF#16⟩
  | .sknp _ => ⟨0xE0A1#16, 0xF0FF#16⟩
  | .ldVxDt _ => ⟨0xF007#16, 0xF0FF#16⟩
  | .ldVxK _ => ⟨0xF00A#16, 0xF0FF#16⟩
  | .ldDtVx _ => ⟨0xF015#16, 0xF0FF#16⟩
  | .ldStVx _ => ⟨0xF018#16, 0xF0FF#16⟩
  | .addI _ => ⟨0xF01E#16, 0xF0FF#16⟩
  | .ldF _ => ⟨0xF029#16, 0xF0FF#16⟩
  | .ldB _ => ⟨0xF033#16, 0xF0FF#16⟩
  | .ldMemVx _ => ⟨0xF055#16, 0xF0FF#16⟩
  | .ldVxMem _ => ⟨0xF065#16, 0xF0FF#16⟩

/-- The 34 rows of R95 in its order. -/
def opcodeTable (loose : Bool) : List Row :=
  [.cls, .ret, .jp 0, .call 0, .seImm 0 0, .sneImm 0 0, .seReg 0 0 0, .ldImm 0 0, .addImm 0 0].map (rowOf loose) ++
  [.ldReg 0 0, .orReg 0 0, .andReg 0 0, .xorReg 0 0, .addReg 0 0, .subReg 0 0, .shr 0 0, .subn 0 0,
    .shl 0 0].map (rowOf loose) ++
  [.sneReg 0 0 0, .ldI 0, .jpV0 0, .rnd 0 0, .drw 0 0 0, .skp 0, .sknp 0].map (rowOf loose) ++
  [.ldVxDt 0, .ldVxK 0, .ldDtVx 0, .ldStVx 0, .addI 0, .ldF 0, .ldB 0, .ldMemVx 0, .ldVxMem 0].map (rowOf loose)

/-! ## The host's question -/

/-- The instruction the decoder reads from an instruction whose bits are `w`, of which the opcode table gives the low
`nbits`: the word is laid out as its two bytes in memory order and given to `decodeBytes` (`LOOSE_5_9` = false). -/
def decodeTableWord (nbits w : Nat) : Option Instr :=
  let word := BitVec.ofNat 16 (w % 2 ^ nbits)
  match decodeBytes false [hiByte word, loByte word] with
  | .ok (i, _) => some i
  | .error _ => none

end Sys2Proof
end

