-- ==== Sys2Proof/Config.lean ====
section
/-! DEFINITION. What an implementation fixes and the free values: the launch parameters of 00_scope.md R7 that a running
machine reads, and the free inputs of R8, the events of the run among them. -/

namespace Sys2Proof

/-- `I_ADD_OVERFLOW`: what FX1E does when `I + VX > 0xFFF` (R7, R191). -/
inductive IAddOverflow where
  | wrap   -- I := (I + VX) mod 4096, the spec's default
  | fault  -- raise IAddOverflow
deriving DecidableEq, Repr

/-- `VF_ORDER`: which of the two writes of VF is the last when X = F in 8XY4, 8XY5, 8XY6, 8XY7, 8XYE (R7, R164). -/
inductive VfOrder where
  | table  -- the order of the opcode table, the spec's default
  | draw   -- either order, chosen by a free input
deriving DecidableEq, Repr

/-- `KEY_INDEX`: what EX9E and EXA1 do when `VX > 0xF` (R7, R242). -/
inductive KeyIndex where
  | fault       -- raise KeyIndexOutOfRange, the spec's default
  | mod16       -- look key VX mod 16 up
  | notPressed  -- such a key is not pressed
deriving DecidableEq, Repr

/-- Which address the record of a MemOutOfRange holds when an instruction runs past 0xFFF by more than one byte: R263
says the first address above 0xFFF, the pseudocode of R193, R194, R195 and R222 names the last address of the access.
DESIGN CHOICE, the model's own parameter, no parameter of the spec: both readings are kept (log 12). -/
inductive MemFaultInfo where
  | firstAbove  -- the first address above 0xFFF (R263)
  | checked     -- the address the instruction's check names (R193, R194, R195, R222)
deriving DecidableEq, Repr

/-- The launch parameters a running machine reads (R7). They are fixed for a run (R37); the machine carries them in
`State.params`, which no event writes. -/
structure Params where
  /-- `COMPAT`, the Super-CHIP compatibility flag (R7, R37). -/
  compat : Bool
  /-- `ALLOW_ODD_PC` (R7, R90). -/
  allowOddPc : Bool
  /-- `I_ADD_OVERFLOW` (R7, R191). -/
  iAddOverflow : IAddOverflow
  /-- `LOOSE_5_9` (R7, R97). -/
  loose59 : Bool
  /-- `VF_ORDER` (R7, R164). -/
  vfOrder : VfOrder
  /-- `KEY_INDEX` (R7, R242). -/
  keyIndex : KeyIndex
  /-- The model's own parameter (log 12). -/
  memFaultInfo : MemFaultInfo
deriving DecidableEq, Repr

/-- The parameters of `State.reset`: the spec's defaults (R7, log 2); `compat`, which the spec leaves OPEN, is false
(DESIGN CHOICE, unsafe for a claim about runs from `State.reset` alone, log 1). -/
def Params.default : Params where
  compat := false
  allowOddPc := false
  iAddOverflow := .wrap
  loose59 := false
  vfOrder := .table
  keyIndex := .fault
  memFaultInfo := .firstAbove

/-- The four kinds of atomic event that drive the block (60_exceptions.md R272). -/
inductive Event where
  | step                    -- STEP, from the host driver
  | tick                    -- TICK, from the 60 Hz trigger
  | keyDown (k : KeyCode)   -- KEYDOWN(k), from the input collaborator
  | keyUp (k : KeyCode)     -- KEYUP(k), from the input collaborator
deriving DecidableEq, Repr, Inhabited

/-- What delivers the events of a run when none is listed in the state, without end: the host driver, the 60 Hz trigger
and the input collaborator together (60_exceptions.md R272, R273, R276). The spec fixes no order, so every infinite
sequence of events is the free source's; rounds are the sequences that can be evaluated (log 10). -/
inductive EventSource where
  | rounds (first : Event) (rest : List Event)  -- the same events over and over
  | free                                        -- any events, one free input each
deriving DecidableEq, Repr

/-- Event number `n` of the free source (R8, R273, R276). It has no body: nothing is known of it, so that a claim holds of
every infinite sequence of events; a claim that needs fairness takes it as a premise (log 24, safe). -/
opaque Config.hostEvent : Nat → Event

/-- `Draw8()`: the free input byte of the CXNN that consumes free input number `n` of the run (R8, R163). It has no
body: nothing is known of it (log 8, safe). -/
opaque Config.draw8 : Nat → Byte

/-- The free input of R164: whether the two writes of VF come in the order opposite to the opcode table's, when
`VF_ORDER` = Draw and free input number `n` of the run is consumed (log 9, safe). -/
opaque Config.vfSwap : Nat → Bool

end Sys2Proof
end

