-- ==== Sys2Proof/Machine/State.lean ====
section
/-! DEFINITION. The state of the machine: the components of 10_state.md R20, all of them, the launch parameters a running
machine reads (00_scope.md R7), and five fields of the model's own (free inputs consumed, Repaint events emitted, and the
three that say which event comes next). -/

namespace Sys2Proof.Machine

/-- The 4096 bytes of `Mem` (R30, R60), as the list of the cells that differ from what an unlisted address reads as
(`background`, Machine/Memory.lean), addresses strictly rising. -/
abbrev Memory := List Host.Cell

/-- The framebuffer (R31, R220): 32 rows of 64 cells, row 0 first; cell (x, y) is bit x of row y (log 20). -/
abbrev Fb := Vector (BitVec 64) 32

/-- Why an instruction or its fetch raises (60_exceptions.md R260, R261): the argument of the pseudocode's
`raise F(info)` (R11). A raise never leaves the machine: `takeFault` turns it into the record of R264 in `State.halt`,
and the step answers a next state (log 11); no step of this machine answers with one of these as its outcome. The
docstrings say who raises each and how the stop errs. -/
inductive Fault where
  /-- Raised by the decoder for a word that selects no row (R96). A fatal condition of the source: exact, safe. -/
  | unknownOpcode (w : Word)
  /-- Raised by 00EE with SP = 0 (R122). A fatal condition of the source: exact, safe. -/
  | stackUnderflow
  /-- Raised by 2NNN with SP = 16 (R124). A fatal condition of the source: exact, safe. -/
  | stackOverflow
  /-- Raised by the fetch at an odd PC when `ALLOW_ODD_PC` is false (R90). The spec's decision D12: safe. -/
  | misalignedFetch (pc : Addr)
  /-- Raised by the fetch, DXYN, FX33, FX55 and FX65 for an access that reaches the address `addr` above 0xFFF
  (R62, R63). The spec's decision D13: safe. -/
  | memOutOfRange (addr : Nat)
  /-- Raised by every instruction whose new PC, and by 2NNN whose return address, is above 0xFFF (R120, R124). The
  spec's decision D11: safe. -/
  | pcOutOfRange (target : Nat)
  /-- Raised by EX9E and EXA1 with VX > 0xF when `KEY_INDEX` is Fault (R242). The spec's decision D17: safe. -/
  | keyIndexOutOfRange (k : Byte)
  /-- Raised by FX1E with I + VX > 0xFFF when `I_ADD_OVERFLOW` is Fault (R191). The spec's decision D14: safe. -/
  | iAddOverflow (sum : Nat)
deriving DecidableEq, Repr

/-- Why an instruction has no meaning. Every instruction of this machine has one, so no step answers a refusal. -/
inductive Refusal where
  /-- Raised by an arm of `exec` whose instruction has no meaning yet: none. Safe: the model stops. -/
  | notModelled (mnemonic : String)
deriving DecidableEq, Repr

/-- The fault codes of R263. -/
inductive FaultCode where
  | unknownOpcode       -- 1
  | stackUnderflow      -- 2
  | stackOverflow       -- 3
  | misalignedFetch     -- 16
  | memOutOfRange       -- 17
  | pcOutOfRange        -- 18
  | keyIndexOutOfRange  -- 19
  | iAddOverflow        -- 20
deriving DecidableEq, Repr

/-- The fault record written to `halt` (R264). -/
structure FaultRecord where
  /-- which fault (R263) -/
  code : FaultCode
  /-- the address of the faulting instruction -/
  pc : Addr
  /-- the instruction word, or none for a fault raised before the word was fetched -/
  word : Option Word
  /-- the value R263 names for the fault -/
  info : Nat
deriving DecidableEq, Repr

/-- The machine state. Fields `v` to `halt` are the components of R20; `params` are launch parameters (R7, R37), fixed
for the run; `draws`, `repaints`, `events`, `host` and `arrivals` are the model's own. -/
structure State where
  /-- `V[0..15]` (R21). -/
  v : Vector Byte 16
  /-- `I` (R25). -/
  i : Addr
  /-- `PC` (R26). -/
  pc : Addr
  /-- `Stack[0..15]` (R28). -/
  stack : Vector Addr 16
  /-- `SP`, the stack depth, 0..16 (R28). -/
  sp : Fin 17
  /-- `Mem` (R30). -/
  mem : Memory
  /-- `FB` (R31). -/
  fb : Fb
  /-- The delay timer (R32). -/
  delay : Byte
  /-- The sound timer (R33). -/
  sound : Byte
  /-- `Key[0..15]`, true = pressed (R34). -/
  key : Vector Bool 16
  /-- The wait gate is closed (R35). -/
  waiting : Bool
  /-- The register the next key-down writes while `waiting` (R35). -/
  waitReg : RegIdx
  /-- None while the machine runs, else the fault record (R36, R264). -/
  halt : Option FaultRecord
  /-- The launch parameters (R7); no event writes them (R37, R280; log 1). -/
  params : Params
  /-- MODEL'S OWN: how many free inputs (R8, R164) the run has consumed (log 8). -/
  draws : Nat
  /-- MODEL'S OWN: how many Repaint events (R226) have been emitted (log 16). -/
  repaints : Nat
  /-- MODEL'S OWN: the events already fixed to come, next first (R273; log 10). -/
  events : List Event
  /-- MODEL'S OWN: what delivers events when none is listed, without end (R276; log 10). Fixed for the run: no event
  writes it. -/
  host : EventSource
  /-- MODEL'S OWN: how many events of the free source have arrived (log 24). -/
  arrivals : Nat
deriving DecidableEq, Repr

/-- The machine right after reset (R40, R300), with the parameters `Params.default`, no ROM, the conventional FONT and
`INIT_FILL` = 0x00 (memory with nothing listed; log 3, log 4, log 5) and a host that delivers STEP events alone (log 10). The stack entries, which the spec leaves at any
value, are 0 (log 7). -/
def State.reset : State where
  v := Vector.replicate 16 0#8
  i := 0#12
  pc := 0x200#12
  stack := Vector.replicate 16 0#12
  sp := 0
  mem := []
  fb := Vector.replicate 32 0#64
  delay := 0#8
  sound := 0#8
  key := Vector.replicate 16 false
  waiting := false
  waitReg := 0#4
  halt := none
  params := Params.default
  draws := 0
  repaints := 0
  events := []
  host := .rounds .step []
  arrivals := 0

end Sys2Proof.Machine
end

