-- ==== Sys2Proof/Machine/Memory.lean ====
section
/-! DEFINITION. Memory as plain data (20_memory.md R60 to R71): what an unlisted address reads as, the read and the write
of one byte, and the canonical form. -/

namespace Sys2Proof.Machine

/-- The conventional 80-byte font (70_reset_and_hazards.md R301), glyphs 0 to 7. PRESUMED: the spec supplies it from
general knowledge (G1) as the default of the parameter FONT (log 3). -/
def fontLow : List Byte :=
  [0xF0#8, 0x90#8, 0x90#8, 0x90#8, 0xF0#8, 0x20#8, 0x60#8, 0x20#8, 0x20#8, 0x70#8] ++
  [0xF0#8, 0x10#8, 0xF0#8, 0x80#8, 0xF0#8, 0xF0#8, 0x10#8, 0xF0#8, 0x10#8, 0xF0#8] ++
  [0x90#8, 0x90#8, 0xF0#8, 0x10#8, 0x10#8, 0xF0#8, 0x80#8, 0xF0#8, 0x10#8, 0xF0#8] ++
  [0xF0#8, 0x80#8, 0xF0#8, 0x90#8, 0xF0#8, 0xF0#8, 0x10#8, 0x20#8, 0x40#8, 0x40#8]

/-- The conventional font, glyphs 8 to F (R301, log 3). -/
def fontHigh : List Byte :=
  [0xF0#8, 0x90#8, 0xF0#8, 0x90#8, 0xF0#8, 0xF0#8, 0x90#8, 0xF0#8, 0x10#8, 0xF0#8] ++
  [0xF0#8, 0x90#8, 0xF0#8, 0x90#8, 0x90#8, 0xE0#8, 0x90#8, 0xE0#8, 0x90#8, 0xE0#8] ++
  [0xF0#8, 0x80#8, 0x80#8, 0x80#8, 0xF0#8, 0xE0#8, 0x90#8, 0x90#8, 0x90#8, 0xE0#8] ++
  [0xF0#8, 0x80#8, 0xF0#8, 0x80#8, 0xF0#8, 0xF0#8, 0x80#8, 0xF0#8, 0x80#8, 0x80#8]

/-- The default of the parameter FONT: glyph k at bytes 5k to 5k+4 (R301, log 3). -/
def font : List Byte := fontLow ++ fontHigh

/-- What an address that memory does not list reads as: the reset contents of `State.reset`, FONT below 0x050 and
`INIT_FILL` = 0x00 elsewhere (R69; DESIGN CHOICE for the fill, unsafe, log 4). -/
def background (a : Nat) : Byte := font.getD a 0#8

/-- The byte at address `a` (R62, without the range check). -/
def Memory.read : Memory → Nat → Byte
  | [], a => background a
  | (b, v) :: rest, a => if a = b then v else Memory.read rest a

/-- `m` with no entry for address `a`. -/
def Memory.erase (m : Memory) (a : Nat) : Memory := m.filter fun c => c.1 != a

/-- `m` with the entry `(a, v)` put before the first higher address. -/
def Memory.insert : Memory → Nat → Byte → Memory
  | [], a, v => [(a, v)]
  | (b, u) :: rest, a, v => if a < b then (a, v) :: (b, u) :: rest else (b, u) :: Memory.insert rest a v

/-- Make the byte at address `a` read as `v` (R63, without the range check), keeping the canonical form: the value an
unlisted address reads as is not listed. -/
def Memory.write (m : Memory) (a : Nat) (v : Byte) : Memory :=
  if v = background a then m.erase a else (m.erase a).insert a v

/-- Every address listed is at least `lo` and below 0x1000, they rise strictly, and no entry equals the background. -/
def Memory.wfFrom : Nat → Memory → Bool
  | _, [] => true
  | lo, (a, v) :: rest => decide (lo ≤ a) && decide (a < 0x1000) && (v != background a) && Memory.wfFrom (a + 1) rest

/-- The canonical form: addresses strictly rising and inside the address space, no entry equal to what an unlisted
address reads as. -/
def Memory.wf (m : Memory) : Bool := Memory.wfFrom 0 m

/-- The canonical memory that reads as `f` at every address of `addrs`, which rise strictly, and as the background
elsewhere. -/
def Memory.ofFn (addrs : List Nat) (f : Nat → Byte) : Memory :=
  addrs.filterMap fun a => if f a = background a then none else some (a, f a)

end Sys2Proof.Machine
end

