-- ==== Sys2Proof/Machine/Ops.lean ====
section
/-! DEFINITION. The named operations over registers, memory, PC, stack and framebuffer, and the one operation that takes
a fault. The pseudocode's `raise` (00_scope.md R11) is `Except.error`; an instruction's pseudocode runs on a working copy
that a raise discards (R12). -/

namespace Sys2Proof.Machine

/-! ## General registers (10_state.md R21) -/

/-- `V[x]`. -/
def State.reg (s : State) (x : RegIdx) : Byte := s.v[x.toNat]'x.isLt

/-- `V[x] <- b`. -/
def State.setReg (s : State) (x : RegIdx) (b : Byte) : State := { s with v := s.v.set x.toNat b x.isLt }

/-! ## I, the free inputs -/

/-- `I <- a` (R25). -/
def State.setI (s : State) (a : Addr) : State := { s with i := a }

/-- One free input of the run has been consumed (R8, log 8). -/
def State.countDraw (s : State) : State := { s with draws := s.draws + 1 }

/-! ## PC (40_control_flow.md R120) -/

/-- PC after a target that is in range. -/
def State.putPc (s : State) (a : Addr) : State := { s with pc := a }

/-- `SetPC(t)` of R120: a target above 0xFFF is a fault (the spec's decision D11). -/
def setPC (s : State) (t : Nat) : Except Fault State :=
  if t > 0xFFF then .error (.pcOutOfRange t) else .ok (s.putPc (BitVec.ofNat 12 t))

/-- `Advance(k)` of R120. -/
def advance (s : State) (k : Nat) : Except Fault State := setPC s (s.pc.toNat + k)

/-- The end of a conditional skip (R121): `Advance(4)` when the condition holds, else `Advance(2)`. -/
def skipIf (s : State) (c : Bool) : Except Fault State := if c then advance s 4 else advance s 2

/-! ## Call stack (10_state.md R28) -/

/-- The push of R28 and R124: SP = 16 is StackOverflow. -/
def push (s : State) (r : Addr) : Except Fault State :=
  if h : s.sp.val < 16 then
    .ok { s with stack := s.stack.set s.sp.val r h, sp := ⟨s.sp.val + 1, by omega⟩ }
  else .error .stackOverflow

/-- The pop of R28 and R122: SP = 0 is StackUnderflow. Answers the popped entry and the state after. -/
def pop (s : State) : Except Fault (Addr × State) :=
  if h : s.sp.val = 0 then .error .stackUnderflow
  else .ok (s.stack[s.sp.val - 1], { s with sp := ⟨s.sp.val - 1, by omega⟩ })

/-! ## Memory (20_memory.md R62 to R64) -/

/-- `MemRead(a, 1)` (R62). -/
def memRead (s : State) (a : Nat) : Except Fault Byte :=
  if a > 0xFFF then .error (.memOutOfRange a) else .ok (s.mem.read a)

/-- The address a MemOutOfRange record holds for an access of `base` .. `last` that runs past 0xFFF (log 12). -/
def outOfRangeAddr (p : Params) (base last : Nat) : Nat :=
  match p.memFaultInfo with
  | .firstAbove => max base 0x1000
  | .checked => last

/-- The check made before an access of `base` .. `last`, before anything is written (R63, R64; the spec's decision
D13). -/
def checkRange (s : State) (base last : Nat) : Except Fault Unit :=
  if last > 0xFFF then .error (.memOutOfRange (outOfRangeAddr s.params base last)) else .ok ()

/-- `Mem[base + k] <- f k` for k = 0, 1, ..., n-1 in that order. -/
def writeBytes (m : Memory) (base : Nat) (f : Nat → Byte) (n : Nat) : Memory :=
  (List.range n).foldl (fun m k => m.write (base + k) (f k)) m

/-- `V[k] <- f k` for k = 0, 1, ..., n-1 in that order. -/
def State.setRegs (s : State) (f : Nat → Byte) (n : Nat) : State :=
  (List.range n).foldl (fun s k => s.setReg (BitVec.ofNat 4 k) (f k)) s

/-! ## Fetch (30_encoding.md R90) -/

/-- `Fetch(PC)`: two consecutive bytes, big-endian. -/
def fetch (s : State) : Except Fault Word :=
  if s.pc.toNat % 2 = 1 ∧ s.params.allowOddPc = false then .error (.misalignedFetch s.pc)
  else
    match memRead s s.pc.toNat with
    | .error f => .error f
    | .ok hi =>
      match memRead s (s.pc.toNat + 1) with
      | .error f => .error f
      | .ok lo => .ok (wordOfBytes hi lo)

/-! ## Taking a fault (60_exceptions.md R262 to R264) -/

/-- The number R263 assigns to a fault code. -/
def FaultCode.number : FaultCode → Nat
  | .unknownOpcode => 1
  | .stackUnderflow => 2
  | .stackOverflow => 3
  | .misalignedFetch => 16
  | .memOutOfRange => 17
  | .pcOutOfRange => 18
  | .keyIndexOutOfRange => 19
  | .iAddOverflow => 20

/-- The code of a raised fault (R263). -/
def Fault.code : Fault → FaultCode
  | .unknownOpcode _ => .unknownOpcode
  | .stackUnderflow => .stackUnderflow
  | .stackOverflow => .stackOverflow
  | .misalignedFetch _ => .misalignedFetch
  | .memOutOfRange _ => .memOutOfRange
  | .pcOutOfRange _ => .pcOutOfRange
  | .keyIndexOutOfRange _ => .keyIndexOutOfRange
  | .iAddOverflow _ => .iAddOverflow

/-- The column "info recorded" of R263; `w` is the instruction word (log 13). -/
def Fault.info (w : Option Word) : Fault → Nat
  | .unknownOpcode u => u.toNat
  | .stackUnderflow => (w.getD 0#16).toNat
  | .stackOverflow => (w.getD 0#16).toNat
  | .misalignedFetch pc => pc.toNat
  | .memOutOfRange a => a
  | .pcOutOfRange t => t
  | .keyIndexOutOfRange k => k.toNat
  | .iAddOverflow sum => sum

/-- The record of R264 for a fault raised by the instruction at PC, whose word is `w`. -/
def faultRecord (s : State) (w : Option Word) (f : Fault) : FaultRecord where
  code := f.code
  pc := s.pc
  word := w
  info := f.info w

/-- TAKING A FAULT (R262, R264): `halt` is written, nothing else. `s` is the state before the step. -/
def State.takeFault (s : State) (w : Option Word) (f : Fault) : State := { s with halt := some (faultRecord s w f) }

/-- The end of an instruction's pseudocode, run from `s`: its working copy is the next state; a raise discards it and
takes the fault (R12, R102, R262). -/
def complete (s : State) (i : Instr) : Except Fault State → Host.Outcome State Fault Refusal
  | .ok t => .next t
  | .error f => .next (s.takeFault (some (encode i)) f)

/-! ## Framebuffer cells (43_display.md R220) -/

/-- `FB[x][y]`. -/
def Fb.cell (fb : Fb) (x : Fin 64) (y : Fin 32) : Bool := fb[y.val].getLsbD x.val

/-- `FB[x][y] <- FB[x][y] XOR 1`. -/
def Fb.flip (fb : Fb) (x : Fin 64) (y : Fin 32) : Fb := fb.set y.val (fb[y.val] ^^^ (1#64 <<< x.val))

/-- Every cell 0. -/
def Fb.clear : Fb := Vector.replicate 32 0#64

/-- Element `n` of the linear view given to the rendering collaborator (R220, R227): row-major, cell (x, y) is element
y * 64 + x. -/
def Fb.element (fb : Fb) (n : Fin 2048) : Bool :=
  Fb.cell fb ⟨n.val % 64, Nat.mod_lt _ (by decide)⟩ ⟨n.val / 64, by omega⟩

end Sys2Proof.Machine
end

