-- ==== Sys2Proof/Machine/Flags.lean ====
section
/-! DEFINITION. Results and flags of the arithmetic and shift instructions (41_alu.md R150, R151, R158 to R162), each
result computed as an integer and narrowed at the end, and the two writes of an instruction whose destination may be VF
itself (R164). -/

namespace Sys2Proof.Machine

/-- The sum of R150, mod 256. -/
def addResult (a b : Byte) : Byte := BitVec.ofNat 8 (a.toNat + b.toNat)

/-- The flag write of 8XY4 (R158): 1 when the integer sum is 256 or more, else none. -/
def carryFlag (a b : Byte) : Option Byte := if a.toNat + b.toNat ≥ 256 then some 1#8 else none

/-- The difference `a - b` of R150, mod 256. -/
def subResult (a b : Byte) : Byte := BitVec.ofInt 8 ((a.toNat : Int) - (b.toNat : Int))

/-- The flag write of 8XY5 and 8XY7 (R159, R161) for the difference `a - b`: 1 when there is no borrow, else none. -/
def noBorrowFlag (a b : Byte) : Option Byte := if (a.toNat : Int) - (b.toNat : Int) ≥ 0 then some 1#8 else none

/-- `op >> 1` (R160). -/
def shrResult (op : Byte) : Byte := op >>> 1

/-- The bit 8XY6 shifts out (R160). -/
def shrFlag (op : Byte) : Byte := op &&& 1#8

/-- `(op << 1) mod 256` (R162). -/
def shlResult (op : Byte) : Byte := op <<< 1

/-- The bit 8XYE shifts out (R162). -/
def shlFlag (op : Byte) : Byte := (op &&& 0x80#8) >>> 7

/-- The write of VF as a flag: none leaves VF as it is (R151). -/
def putFlag (s : State) (flag : Option Byte) : State :=
  match flag with
  | some b => s.setReg regF b
  | none => s

/-- The destination write and the flag write in the order of the opcode table: destination first for 8XY4, 8XY5 and
8XY7, flag first for 8XY6 and 8XYE (R164). -/
def orderedWrites (s : State) (x : RegIdx) (r : Byte) (flag : Option Byte) (destFirst : Bool) : State :=
  if destFirst then putFlag (s.setReg x r) flag else (putFlag s flag).setReg x r

/-- The VF that two writes of VF leave: the last one's value. -/
def lastVf (r : Byte) (flag : Option Byte) (destFirst : Bool) : Byte := if destFirst then flag.getD r else r

/-- Both writes of an arithmetic or shift instruction. When the destination is VF itself and `VF_ORDER` = Draw, a free
input chooses between the table's order and the other one (R164; log 9). -/
def writeResult (s : State) (x : RegIdx) (r : Byte) (flag : Option Byte) (destFirst : Bool) : State :=
  if x = regF ∧ s.params.vfOrder = .draw then
    (s.setReg x (if Config.vfSwap s.draws then lastVf r flag (!destFirst) else lastVf r flag destFirst)).countDraw
  else orderedWrites s x r flag destFirst

end Sys2Proof.Machine
end

