-- ==== Sys2Proof/Machine/Operands.lean ====
section
/-! DEFINITION. The operand forms: the shift source, the key look-up, the glyph address, the decimal digits, the random
byte, and the post-modification of I (40_control_flow.md to 44_timer_input.md, 42_index_memory.md R196). -/

namespace Sys2Proof.Machine

/-- `zext` of a 4-bit code to a byte (R10): the value a key-down writes to its register (R277). -/
def keyByte (k : KeyCode) : Byte := k.setWidth 8

/-- The low nibble of a byte, its value mod 16. -/
def lowNibble (b : Byte) : BitVec 4 := b.extractLsb' 0 4

/-- The source of 8XY6 and 8XYE (R160, R162): VX when `COMPAT` is true, else VY. -/
def shiftSource (s : State) (x y : RegIdx) : Byte := if s.params.compat then s.reg x else s.reg y

/-- `Key[k]`. -/
def State.keyDown (s : State) (k : KeyCode) : Bool := s.key[k.toNat]'k.isLt

/-- `KeyLookup(k)` of R242 for an 8-bit code; a code above 0xF follows `KEY_INDEX` (the spec's decision D17). -/
def keyLookup (s : State) (k : Byte) : Except Fault Bool :=
  if k.toNat ≤ 0xF then .ok (s.keyDown (lowNibble k))
  else
    match s.params.keyIndex with
    | .fault => .error (.keyIndexOutOfRange k)
    | .mod16 => .ok (s.keyDown (lowNibble k))
    | .notPressed => .ok false

/-- The glyph address of FX29 (R70, R192): font base 0x000 plus five bytes for each glyph before this one. -/
def glyphAddr (b : Byte) : Addr := BitVec.ofNat 12 (0x000 + b.toNat % 16 * 5)

/-- The decimal digits FX33 stores (R193): hundreds, tens, units for k = 0, 1, 2. -/
def decimalDigit (b : Byte) (k : Nat) : Byte :=
  match k with
  | 0 => BitVec.ofNat 8 (b.toNat / 100)
  | 1 => BitVec.ofNat 8 (b.toNat / 10 % 10)
  | _ => BitVec.ofNat 8 (b.toNat % 10)

/-- `(I + X + 1) mod 4096` (R194, R195). -/
def bulkNextI (s : State) (x : RegIdx) : Addr := BitVec.ofNat 12 (s.i.toNat + x.toNat + 1)

/-- The post-modification of FX55 and FX65 (R194, R195, R196): I moves on unless `COMPAT` is true. -/
def bulkPostI (s : State) (x : RegIdx) : State := if s.params.compat then s else s.setI (bulkNextI s x)

end Sys2Proof.Machine
end

