-- ==== Sys2Proof/Machine/Alu.lean ====
section
/-! DEFINITION. Register loads, arithmetic, logic, shifts and the random byte (41_alu.md): 6XNN, 7XNN, 8XY0 to 8XY7, 8XYE,
CXNN. -/

namespace Sys2Proof.Machine

/-- The end of every instruction here: VX is written and PC advances by 2. -/
def loadReg (s : State) (x : RegIdx) (b : Byte) : Except Fault State := advance (s.setReg x b) 2

/-- 6XNN, load immediate (R152). -/
def execLdImm (x : RegIdx) (nn : Byte) (s : State) : Host.Outcome State Fault Refusal :=
  complete s (.ldImm x nn) (loadReg s x nn)

/-- 7XNN, add immediate (R153): no flag. -/
def execAddImm (x : RegIdx) (nn : Byte) (s : State) : Host.Outcome State Fault Refusal :=
  complete s (.addImm x nn) (loadReg s x (addResult (s.reg x) nn))

/-- 8XY0, copy (R154). -/
def execLdReg (x y : RegIdx) (s : State) : Host.Outcome State Fault Refusal :=
  complete s (.ldReg x y) (loadReg s x (s.reg y))

/-- 8XY1, bitwise OR (R155): VF is not cleared. -/
def execOrReg (x y : RegIdx) (s : State) : Host.Outcome State Fault Refusal :=
  complete s (.orReg x y) (loadReg s x (s.reg x ||| s.reg y))

/-- 8XY2, bitwise AND (R156). -/
def execAndReg (x y : RegIdx) (s : State) : Host.Outcome State Fault Refusal :=
  complete s (.andReg x y) (loadReg s x (s.reg x &&& s.reg y))

/-- 8XY3, bitwise XOR (R157). -/
def execXorReg (x y : RegIdx) (s : State) : Host.Outcome State Fault Refusal :=
  complete s (.xorReg x y) (loadReg s x (s.reg x ^^^ s.reg y))

/-- 8XY4, add registers (R158): destination, then VF := 1 on carry. -/
def execAddReg (x y : RegIdx) (s : State) : Host.Outcome State Fault Refusal :=
  complete s (.addReg x y)
    (advance (writeResult s x (addResult (s.reg x) (s.reg y)) (carryFlag (s.reg x) (s.reg y)) true) 2)

/-- 8XY5, subtract (R159): destination, then VF := 1 on no borrow. -/
def execSubReg (x y : RegIdx) (s : State) : Host.Outcome State Fault Refusal :=
  complete s (.subReg x y)
    (advance (writeResult s x (subResult (s.reg x) (s.reg y)) (noBorrowFlag (s.reg x) (s.reg y)) true) 2)

/-- 8XY6, shift right (R160): VF := bit 0 of the source, then the destination. -/
def execShr (x y : RegIdx) (s : State) : Host.Outcome State Fault Refusal :=
  complete s (.shr x y)
    (advance (writeResult s x (shrResult (shiftSource s x y)) (some (shrFlag (shiftSource s x y))) false) 2)

/-- 8XY7, reverse subtract (R161): destination, then VF := 1 on no borrow; `COMPAT` has no effect (C2). -/
def execSubn (x y : RegIdx) (s : State) : Host.Outcome State Fault Refusal :=
  complete s (.subn x y)
    (advance (writeResult s x (subResult (s.reg y) (s.reg x)) (noBorrowFlag (s.reg y) (s.reg x)) true) 2)

/-- 8XYE, shift left (R162): VF := bit 7 of the source, then the destination. -/
def execShl (x y : RegIdx) (s : State) : Host.Outcome State Fault Refusal :=
  complete s (.shl x y)
    (advance (writeResult s x (shlResult (shiftSource s x y)) (some (shlFlag (shiftSource s x y))) false) 2)

/-- CXNN, random byte under mask (R163): the byte is a free input (log 8). -/
def execRnd (x : RegIdx) (nn : Byte) (s : State) : Host.Outcome State Fault Refusal :=
  complete s (.rnd x nn) (loadReg s.countDraw x (Config.draw8 s.draws &&& nn))

end Sys2Proof.Machine
end

