-- ==== Sys2Proof/Machine/Control.lean ====
section
/-! DEFINITION. The control-transfer instructions (40_control_flow.md): 00EE, 1NNN, 2NNN, 3XNN, 4XNN, 5XY0, 9XY0, BNNN. -/

namespace Sys2Proof.Machine

/-- 00EE, return (R122). -/
def execRet (s : State) : Host.Outcome State Fault Refusal :=
  complete s .ret
    (match pop s with
    | .error f => .error f
    | .ok (a, t) => setPC t a.toNat)

/-- 1NNN, jump (R123). -/
def execJp (nnn : Addr) (s : State) : Host.Outcome State Fault Refusal :=
  complete s (.jp nnn) (setPC s nnn.toNat)

/-- The pseudocode of 2NNN (R124): StackOverflow is checked before the range of the return address (R266), which is
PC + 2. -/
def callBody (s : State) (nnn : Addr) : Except Fault State :=
  if s.sp.val = 16 then .error .stackOverflow
  else if s.pc.toNat + 2 > 0xFFF then .error (.pcOutOfRange (s.pc.toNat + 2))
  else
    match push s (BitVec.ofNat 12 (s.pc.toNat + 2)) with
    | .error f => .error f
    | .ok t => setPC t nnn.toNat

/-- 2NNN, call subroutine (R124). -/
def execCall (nnn : Addr) (s : State) : Host.Outcome State Fault Refusal :=
  complete s (.call nnn) (callBody s nnn)

/-- 3XNN, skip if equal to immediate (R125). -/
def execSeImm (x : RegIdx) (nn : Byte) (s : State) : Host.Outcome State Fault Refusal :=
  complete s (.seImm x nn) (skipIf s (s.reg x == nn))

/-- 4XNN, skip if not equal to immediate (R126). -/
def execSneImm (x : RegIdx) (nn : Byte) (s : State) : Host.Outcome State Fault Refusal :=
  complete s (.sneImm x nn) (skipIf s (s.reg x != nn))

/-- 5XY0, skip if registers equal (R127); with `LOOSE_5_9` the low nibble `n` has no effect (R97). -/
def execSeReg (x y : RegIdx) (n : BitVec 4) (s : State) : Host.Outcome State Fault Refusal :=
  complete s (.seReg x y n) (skipIf s (s.reg x == s.reg y))

/-- 9XY0, skip if registers not equal (R128); with `LOOSE_5_9` the low nibble `n` has no effect (R97). -/
def execSneReg (x y : RegIdx) (n : BitVec 4) (s : State) : Host.Outcome State Fault Refusal :=
  complete s (.sneReg x y n) (skipIf s (s.reg x != s.reg y))

/-- BNNN, jump with offset (R129): always V0. -/
def execJpV0 (nnn : Addr) (s : State) : Host.Outcome State Fault Refusal :=
  complete s (.jpV0 nnn) (setPC s (nnn.toNat + (s.reg 0#4).toNat))

end Sys2Proof.Machine
end

