-- ==== Sys2Proof/Machine/Display.lean ====
section
/-! DEFINITION. The display instructions and the sprite XOR-blitter (43_display.md): 00E0, DXYN. -/

namespace Sys2Proof.Machine

/-- 00E0, clear the display (R221): VF is not touched and no Repaint is emitted (R226). -/
def execCls (s : State) : Host.Outcome State Fault Refusal :=
  complete s .cls (advance { s with fb := Fb.clear } 2)

/-- The column of pixel `b` of a sprite at column coordinate `x`, mod 64 (R222, R225). -/
def pixelCol (x : Byte) (b : Nat) : Fin 64 := Fin.ofNat 64 (x.toNat + b)

/-- The row of line `r` of a sprite at row coordinate `y`, mod 32 (R222, R225). -/
def pixelRow (y : Byte) (r : Nat) : Fin 32 := Fin.ofNat 32 (y.toNat + r)

/-- Pixel `b` of a sprite byte: bit 7 is the leftmost (R223; PRESUMED, the spec's general-knowledge passage G2,
log 17). -/
def spriteBit (row : Byte) (b : Nat) : Bool := row.getLsbD (7 - b)

/-- One pixel of R222: a 1 bit flips its cell, and a cell that goes from 1 to 0 is a collision. The pair is the
framebuffer and the collision so far. -/
def drawPixel (acc : Fb × Bool) (cx : Fin 64) (cy : Fin 32) (p : Bool) : Fb × Bool :=
  if p then (acc.1.flip cx cy, acc.2 || acc.1.cell cx cy) else acc

/-- One row of R222: pixels b = 0, 1, ..., 7. -/
def drawRow (acc : Fb × Bool) (x : Byte) (cy : Fin 32) (row : Byte) : Fb × Bool :=
  (List.range 8).foldl (fun acc b => drawPixel acc (pixelCol x b) cy (spriteBit row b)) acc

/-- The sprite loop of R222: rows r = 0, 1, ..., n-1, the bytes at `base + r`, drawn at (x, y). -/
def drawSprite (m : Memory) (base : Nat) (x y : Byte) (n : Nat) (fb : Fb) : Fb × Bool :=
  (List.range n).foldl (fun acc r => drawRow acc x (pixelRow y r) (m.read (base + r))) (fb, false)

/-- The collision flag as VF holds it (R222): 1 or 0, always assigned. -/
def collisionFlag (c : Bool) : Byte := if c then 1#8 else 0#8

/-- The state after the drawing of R222: framebuffer, VF, and one Repaint emitted (R226). VX and VY are read before VF
is written. -/
def drawn (s : State) (x y : RegIdx) (n : BitVec 4) : State :=
  let d := drawSprite s.mem s.i.toNat (s.reg x) (s.reg y) n.toNat s.fb
  { s with fb := d.1, repaints := s.repaints + 1 }.setReg regF (collisionFlag d.2)

/-- The pseudocode of DXYN (R222): the range of the sprite's bytes is checked before any cell changes; N = 0 reads no
byte. -/
def drawBody (s : State) (x y : RegIdx) (n : BitVec 4) : Except Fault State :=
  if n = 0#4 then advance (drawn s x y n) 2
  else
    match checkRange s s.i.toNat (s.i.toNat + n.toNat - 1) with
    | .error f => .error f
    | .ok () => advance (drawn s x y n) 2

/-- DXYN, draw sprite (R222). -/
def execDrw (x y : RegIdx) (n : BitVec 4) (s : State) : Host.Outcome State Fault Refusal :=
  complete s (.drw x y n) (drawBody s x y n)

end Sys2Proof.Machine
end

