-- ==== Sys2Proof/Machine/Index.lean ====
section
/-! DEFINITION. The address register and the transfers between registers and memory (42_index_memory.md): ANNN, FX1E,
FX29, FX33, FX55, FX65. Every address is checked before anything is written (20_memory.md R63). -/

namespace Sys2Proof.Machine

/-- ANNN, load address (R190). -/
def execLdI (nnn : Addr) (s : State) : Host.Outcome State Fault Refusal :=
  complete s (.ldI nnn) (advance (s.setI nnn) 2)

/-- The pseudocode of FX1E (R191): a sum above 0xFFF follows `I_ADD_OVERFLOW` (the spec's decision D14). -/
def addIBody (s : State) (x : RegIdx) : Except Fault State :=
  let sum := s.i.toNat + (s.reg x).toNat
  if sum > 0xFFF then
    match s.params.iAddOverflow with
    | .wrap => advance (s.setI (BitVec.ofNat 12 (sum % 4096))) 2
    | .fault => .error (.iAddOverflow sum)
  else advance (s.setI (BitVec.ofNat 12 sum)) 2

/-- FX1E, add to address register (R191): no flag. -/
def execAddI (x : RegIdx) (s : State) : Host.Outcome State Fault Refusal :=
  complete s (.addI x) (addIBody s x)

/-- FX29, point I at a font glyph (R192). -/
def execLdF (x : RegIdx) (s : State) : Host.Outcome State Fault Refusal :=
  complete s (.ldF x) (advance (s.setI (glyphAddr (s.reg x))) 2)

/-- The pseudocode of FX33 (R193): the three digits at I, I+1, I+2; I is not changed. -/
def bcdBody (s : State) (x : RegIdx) : Except Fault State :=
  match checkRange s s.i.toNat (s.i.toNat + 2) with
  | .error f => .error f
  | .ok () => advance { s with mem := writeBytes s.mem s.i.toNat (decimalDigit (s.reg x)) 3 } 2

/-- FX33, store binary-coded decimal (R193). -/
def execLdB (x : RegIdx) (s : State) : Host.Outcome State Fault Refusal :=
  complete s (.ldB x) (bcdBody s x)

/-- The pseudocode of FX55 (R194): V0..VX to I..I+X. -/
def storeBody (s : State) (x : RegIdx) : Except Fault State :=
  match checkRange s s.i.toNat (s.i.toNat + x.toNat) with
  | .error f => .error f
  | .ok () =>
    advance
      (bulkPostI
        { s with mem := writeBytes s.mem s.i.toNat (fun k => s.reg (BitVec.ofNat 4 k)) (x.toNat + 1) } x) 2

/-- FX55, store registers (R194). -/
def execLdMemVx (x : RegIdx) (s : State) : Host.Outcome State Fault Refusal :=
  complete s (.ldMemVx x) (storeBody s x)

/-- The pseudocode of FX65 (R195): I..I+X to V0..VX. -/
def loadBody (s : State) (x : RegIdx) : Except Fault State :=
  match checkRange s s.i.toNat (s.i.toNat + x.toNat) with
  | .error f => .error f
  | .ok () => advance (bulkPostI (s.setRegs (fun k => s.mem.read (s.i.toNat + k)) (x.toNat + 1)) x) 2

/-- FX65, load registers (R195). -/
def execLdVxMem (x : RegIdx) (s : State) : Host.Outcome State Fault Refusal :=
  complete s (.ldVxMem x) (loadBody s x)

end Sys2Proof.Machine
end

