-- ==== Sys2Proof/Machine/Input.lean ====
section
/-! DEFINITION. The key and timer instructions (44_timer_input.md): EX9E, EXA1, FX07, FX0A, FX15, FX18. -/

namespace Sys2Proof.Machine

/-- The pseudocode of R240 and R241: skip when the key's state is `want`. -/
def keySkip (s : State) (x : RegIdx) (want : Bool) : Except Fault State :=
  match keyLookup s (s.reg x) with
  | .error f => .error f
  | .ok pressed => skipIf s (pressed == want)

/-- EX9E, skip if key pressed (R240). -/
def execSkp (x : RegIdx) (s : State) : Host.Outcome State Fault Refusal :=
  complete s (.skp x) (keySkip s x true)

/-- EXA1, skip if key not pressed (R241). -/
def execSknp (x : RegIdx) (s : State) : Host.Outcome State Fault Refusal :=
  complete s (.sknp x) (keySkip s x false)

/-- FX07, read the delay timer (R243). -/
def execLdVxDt (x : RegIdx) (s : State) : Host.Outcome State Fault Refusal :=
  complete s (.ldVxDt x) (advance (s.setReg x s.delay) 2)

/-- FX0A, wait for a key (R244): the gate closes and PC advances; the next key-down writes VX (R277). -/
def execLdVxK (x : RegIdx) (s : State) : Host.Outcome State Fault Refusal :=
  complete s (.ldVxK x) (advance { s with waiting := true, waitReg := x } 2)

/-- FX15, set the delay timer (R245). -/
def execLdDtVx (x : RegIdx) (s : State) : Host.Outcome State Fault Refusal :=
  complete s (.ldDtVx x) (advance { s with delay := s.reg x } 2)

/-- FX18, set the sound timer (R246). -/
def execLdStVx (x : RegIdx) (s : State) : Host.Outcome State Fault Refusal :=
  complete s (.ldStVx x) (advance { s with sound := s.reg x } 2)

end Sys2Proof.Machine
end

