-- ==== Sys2Proof/Machine/Events.lean ====
section
/-! DEFINITION. The four atomic events that drive the block (60_exceptions.md R272 to R279) and the executor's step
(30_encoding.md R102). After a halt no event changes the state (R265). -/

namespace Sys2Proof.Machine

/-- One fetch-decode-execute cycle of a machine that is neither halted nor waiting (R102). A raise of the fetch or of
the decoder takes its fault (R262). -/
def cycle (s : State) : Host.Outcome State Fault Refusal :=
  match fetch s with
  | .error f => .next (s.takeFault none f)
  | .ok w =>
    match decode s.params.loose59 w with
    | .error _ => .next (s.takeFault (some w) (.unknownOpcode w))
    | .ok i => exec i s

/-- `STEP` (R102): no step after a halt (R265); a no-op while `waiting` (R35, R279; log 14). -/
def execStep (s : State) : Host.Outcome State Fault Refusal :=
  if s.halt.isSome then .next s
  else if s.waiting then .next s
  else cycle s

/-- A timer one tick later: decremented by 1, floored at 0 (R275). -/
def decrement (b : Byte) : Byte := if b.toNat > 0 then BitVec.ofNat 8 (b.toNat - 1) else b

/-- `TICK` (R275): both timers in one atomic event. -/
def applyTick (s : State) : State :=
  if s.halt.isSome then s else { s with delay := decrement s.delay, sound := decrement s.sound }

/-- `Key[k] <- b`. -/
def State.setKey (s : State) (k : KeyCode) (b : Bool) : State := { s with key := s.key.set k.toNat b k.isLt }

/-- A key-down ends the wait (R277): the code goes to `V[wait_reg]` and the gate opens. -/
def releaseGate (s : State) (k : KeyCode) : State := { s.setReg s.waitReg (keyByte k) with waiting := false }

/-- `KEYDOWN(k)` (R277). -/
def applyKeyDown (s : State) (k : KeyCode) : State :=
  if s.halt.isSome then s
  else if s.waiting then releaseGate (s.setKey k true) k
  else s.setKey k true

/-- `KEYUP(k)` (R278): it never affects the gate. -/
def applyKeyUp (s : State) (k : KeyCode) : State := if s.halt.isSome then s else s.setKey k false

/-- One event of R272, applied atomically to the whole state (R273). -/
def applyEvent (e : Event) (s : State) : Host.Outcome State Fault Refusal :=
  match e with
  | .step => execStep s
  | .tick => .next (applyTick s)
  | .keyDown k => .next (applyKeyDown s k)
  | .keyUp k => .next (applyKeyUp s k)

/-- The next event of the run: the first of those listed, else the next one of the source (R273, R276; log 10). -/
def State.nextEvent (s : State) : Event :=
  match s.events, s.host with
  | e :: _, _ => e
  | [], .rounds e _ => e
  | [], .free => Config.hostEvent s.arrivals

/-- The events listed once the next event is taken: with none listed, the rest of the source's round. -/
def State.eventsLeft (s : State) : List Event :=
  match s.events, s.host with
  | _ :: rest, _ => rest
  | [], .rounds _ rest => rest
  | [], .free => []

/-- The count of the free source's events once the next event is taken. -/
def State.arrivalsAfter (s : State) : Nat :=
  match s.events, s.host with
  | [], .free => s.arrivals + 1
  | _, _ => s.arrivals

/-- The state in which the next event is applied: that event is no longer to come. -/
def State.takeEvent (s : State) : State := { s with events := s.eventsLeft, arrivals := s.arrivalsAfter }

end Sys2Proof.Machine
end

