-- ==== Sys2Proof/Machine/Launch.lean ====
section
/-! DEFINITION. Reset with any launch parameters (70_reset_and_hazards.md R300 to R303): FONT, INIT_FILL and ROM act only
here, so they are arguments and no state. The source of events is chosen here too. -/

namespace Sys2Proof.Machine

/-- The launch parameters of a run (00_scope.md R7). -/
structure Launch where
  /-- the parameters a running machine reads -/
  params : Params
  /-- `FONT`: 80 bytes -/
  font : Vector Byte 80
  /-- `INIT_FILL`: one byte for each address outside the font table and the ROM image -/
  fill : Nat → Byte
  /-- `ROM`: the program image -/
  rom : List Byte
  /-- what delivers the events of the run (R280; log 10) -/
  host : EventSource

/-- What address `a` holds after reset (R300 to R302): FONT below 0x050, the ROM image from 0x200, INIT_FILL elsewhere.
ROM bytes that would land above 0xFFF are dropped, because there is no such address (R302). -/
def Launch.byteAt (l : Launch) (a : Nat) : Byte :=
  if h : a < 80 then l.font[a]
  else if a < 0x200 then l.fill a
  else
    match l.rom[a - 0x200]? with
    | some b => b
    | none => l.fill a

/-- Every address of the address space (R60). -/
def addressSpace : List Nat := List.range 0x1000

/-- Memory right after reset (R300 to R302). -/
def Launch.memory (l : Launch) : Memory := Memory.ofFn addressSpace l.byteAt

/-- The machine right after reset with launch parameters `l` (R40, R300). -/
def State.resetWith (l : Launch) : State :=
  { State.reset with params := l.params, mem := l.memory, host := l.host }

/-- The launch parameters of `State.reset` (log 1 to log 5). -/
def Launch.default : Launch where
  params := Params.default
  font := ⟨Sys2Proof.Machine.font.toArray, by decide⟩
  fill := fun _ => 0#8
  rom := []
  host := .rounds .step []

end Sys2Proof.Machine
end

