-- ==== Sys2Proof/Machine/Step.lean ====
section
/-! DEFINITION. One step of the machine: one atomic event (60_exceptions.md R272, R273). -/

namespace Sys2Proof.Machine

/-- One step: the next event of the run is applied. With no event
listed and a host that delivers STEP alone, as at `State.reset`, this is the executor's STEP (R102). -/
def step (s : State) : Host.Outcome State Fault Refusal := applyEvent s.nextEvent s.takeEvent

/-- `s` with the instruction whose bits are `w` (the low `nbits` of them given, the rest 0) stored where the next step
fetches, and everything else that keeps the very next step from running it put out of the way: a halt, a closed wait
gate, events that would come before the STEP, and a PC at which no word can be fetched, which is rounded down to an even address
(log 21). -/
def State.withFetchWord (s : State) (nbits w : Nat) : State :=
  let word := BitVec.ofNat 16 (w % 2 ^ nbits)
  let pc := if s.pc.toNat % 2 = 0 ∨ (s.params.allowOddPc = true ∧ s.pc.toNat < 0xFFF) then s.pc else s.pc - 1#12
  { s with
    pc := pc
    mem := (s.mem.write pc.toNat (hiByte word)).write (pc.toNat + 1) (loByte word)
    waiting := false
    halt := none
    events := []
    host := .rounds .step [] }

end Sys2Proof.Machine
end

