-- ==== Sys2Proof/Safety.lean ====
section
/-! DEFINITION. What counts as a safe run, a finished run and a hang, in the terms claims use (70_reset_and_hazards.md
R306; 60_exceptions.md R265, R273, R276, R279). -/

namespace Sys2Proof.Machine

/-- No fault has been recorded (R36, R265). -/
def State.running (s : State) : Bool := s.halt.isNone

/-- The wait gate holds the executor: only a key-down lifts it (R279). A run that stays here is a hang. -/
def State.held (s : State) : Bool := s.halt.isNone && s.waiting

/-- The end of a run (R306, the spec's decision D26): not halted, not waiting, PC even, and the word at PC is a jump to
itself. -/
def State.atEndOfRun (s : State) : Bool :=
  s.halt.isNone && !s.waiting && (s.pc.toNat % 2 == 0) &&
    (wordOfBytes (s.mem.read s.pc.toNat) (s.mem.read (s.pc.toNat + 1)) == encode (.jp s.pc))

/-! ## Runs and fairness (R273, R276) -/

/-- `s` with its next `n` events taken and none applied. -/
def State.afterEvents (s : State) : Nat → State
  | 0 => s
  | n + 1 => (s.afterEvents n).takeEvent

/-- Event number `n` of the run from `s`. -/
def State.eventAt (s : State) (n : Nat) : Event := (s.afterEvents n).nextEvent

/-- Fairness, the one assumption R276 lets a claim take: in the infinite run from `s` there are infinitely many ticks. -/
def State.Fair (s : State) : Prop := ∀ n, ∃ m, n ≤ m ∧ s.eventAt m = .tick

/-- The state an outcome goes on with; every step answers next. -/
def State.goesOn (s : State) : Host.Outcome State Fault Refusal → State
  | .next t => t
  | _ => s

/-- The state after `n` steps of the run from `s`. -/
def State.afterSteps (s : State) : Nat → State
  | 0 => s
  | n + 1 => (s.afterSteps n).goesOn (step (s.afterSteps n))

end Sys2Proof.Machine
end

