-- ==== Sys2Proof/Certificates/Slice0/Obligations.lean ====
section
/-! DEFINITION. The statements for the provers, from the numbered rules of spec/. "The spec's decision D<n>" names a row of
92_eei_decisions.md; "log <n>" an entry of notes/assumptions. A statement about a free input (`Config.draw8`,
`Config.vfSwap`, `Config.hostEvent`) holds for every value of it, and of the counters `draws` and `arrivals`. -/

namespace Sys2Proof.Claims

open Sys2Proof Sys2Proof.Machine

/-- Every general register outside `written` is unchanged. -/
def RegsKept (s t : State) (written : RegIdx → Prop) : Prop := ∀ r, ¬ written r → t.reg r = s.reg r

/-- Every byte of memory outside `stored` reads as before. -/
def BytesKept (s t : State) (stored : Nat → Prop) : Prop := ∀ a, ¬ stored a → t.mem.read a = s.mem.read a

/-- `t` is `s` with other general registers (none outside `written`) and another PC: every other component, memory
among them, is unchanged. -/
def OnlyRegsAndPc (s t : State) (written : RegIdx → Prop) : Prop :=
  t = { s with v := t.v, pc := t.pc } ∧ RegsKept s t written ∧ BytesKept s t (fun _ => False)

/-- `t` is `s` with another PC and nothing else. -/
def OnlyPc (s t : State) : Prop := t = { s with pc := t.pc } ∧ BytesKept s t (fun _ => False)

/-- `exec i s` takes the fault `code`: the next state is `s` with the record of R264 in `halt`, nothing else. -/
def Halts (i : Instr) (s : State) (code : FaultCode) (info : Nat) : Prop :=
  exec i s = .next { s with halt := some { code := code, pc := s.pc, word := some (encode i), info := info } }

/-- `Advance(k)` stays inside the address space. -/
abbrev Fits (s : State) (k : Nat) : Prop := s.pc.toNat + k ≤ 0xFFF

/-- The machine is about to execute an instruction: the next event is STEP, no fault is recorded, the gate is open. -/
abbrev Ready (s : State) : Prop := s.nextEvent = .step ∧ s.halt = none ∧ s.waiting = false

/-- The word at PC can be fetched (R90): PC is even, or odd PCs are allowed and PC + 1 is an address. -/
abbrev Fetchable (s : State) : Prop := s.pc.toNat % 2 = 0 ∨ (s.params.allowOddPc = true ∧ s.pc.toNat < 0xFFF)

/-- The word at PC, big-endian. -/
def wordAtPc (s : State) : Word := wordOfBytes (s.mem.read s.pc.toNat) (s.mem.read (s.pc.toNat + 1))

/-- The final VF follows the order of the opcode table: the destination is not VF, or `VF_ORDER` = Table (R164). -/
abbrev TableOrder (s : State) (x : RegIdx) : Prop := x ≠ regF ∨ s.params.vfOrder = .table

/-- The instructions that end with `SetPC` of a target of their own (R121). -/
def IsJump : Instr → Prop
  | .ret | .jp _ | .call _ | .jpV0 _ => True
  | _ => False

/-- The condition of a conditional skip in `s` (R125 to R128, R240, R241), none for another instruction. For the key
skips it is that of a key code 0x0..0xF, of `KEY_INDEX` = Mod16 or of NotPressed (R242). -/
def skipCondition (s : State) : Instr → Option Bool
  | .seImm x nn => some (decide (s.reg x = nn))
  | .sneImm x nn => some (decide (s.reg x ≠ nn))
  | .seReg x y _ => some (decide (s.reg x = s.reg y))
  | .sneReg x y _ => some (decide (s.reg x ≠ s.reg y))
  | .skp x => some (pressed x)
  | .sknp x => some (!pressed x)
  | _ => none
where
  /-- the key state a key skip tests -/
  pressed (x : RegIdx) : Bool :=
    if (s.reg x).toNat > 0xF ∧ s.params.keyIndex = .notPressed then false
    else s.key[(s.reg x).toNat % 16]'(Nat.mod_lt _ (by decide))

/-- Which general registers an instruction may write at once (R22). -/
def writesReg : Instr → RegIdx → Prop
  | .ldImm x _, r | .addImm x _, r | .ldReg x _, r | .orReg x _, r | .andReg x _, r | .xorReg x _, r => r = x
  | .rnd x _, r | .ldVxDt x, r => r = x
  | .addReg x _, r | .subReg x _, r | .shr x _, r | .subn x _, r | .shl x _, r => r = x ∨ r = regF
  | .drw _ _ _, r => r = regF
  | .ldVxMem x, r => r.toNat ≤ x.toNat
  | _, _ => False

/-- The pixel the sprite of a DXYN puts on cell (c, r) (R222, R223, R225): the column offset of c from the left edge and
the row offset of r from the top edge are taken mod 64 and mod 32, and the pixel is bit 7 minus the column offset of the
byte at I plus the row offset. -/
def spritePixel (s : State) (x y : RegIdx) (n : BitVec 4) (c : Fin 64) (r : Fin 32) : Bool :=
  let dc := (c.val + 64 - (s.reg x).toNat % 64) % 64
  let dr := (r.val + 32 - (s.reg y).toNat % 32) % 32
  decide (dc < 8) && decide (dr < n.toNat) && (s.mem.read (s.i.toNat + dr)).getLsbD (7 - dc)

/-- The byte that FX33 or FX55 stores at address `a`, if it stores there (R193, R194). -/
def storedByte (s : State) : Instr → Nat → Option Byte
  | .ldB x, a =>
    if a = s.i.toNat then some (BitVec.ofNat 8 ((s.reg x).toNat / 100))
    else if a = s.i.toNat + 1 then some (BitVec.ofNat 8 ((s.reg x).toNat / 10 % 10))
    else if a = s.i.toNat + 2 then some (BitVec.ofNat 8 ((s.reg x).toNat % 10))
    else none
  | .ldMemVx x, a =>
    if s.i.toNat ≤ a ∧ a ≤ s.i.toNat + x.toNat then some (s.reg (BitVec.ofNat 4 (a - s.i.toNat))) else none
  | _, _ => none

/-- The sprite of a DXYN lies inside memory (R222). -/
abbrev SpriteInMemory (s : State) (n : BitVec 4) : Prop := s.i.toNat + n.toNat ≤ 0x1000

end Sys2Proof.Claims

open Sys2Proof Sys2Proof.Machine Sys2Proof.Claims

/-! ## Encoding -/

/-- A few words written out from the encodings of R95 decode to their instructions, and words outside the table are
rejected (vectors E1 to E6). -/
def Obligations.DecodeSpecWords : Prop :=
  decode false 0x00E0#16 = .ok .cls ∧ decode false 0x00EE#16 = .ok .ret ∧
  decode false 0x1234#16 = .ok (.jp 0x234#12) ∧ decode false 0x3312#16 = .ok (.seImm 3#4 0x12#8) ∧
  decode false 0x8F06#16 = .ok (.shr 0xF#4 0#4) ∧ decode false 0xA050#16 = .ok (.ldI 0x050#12) ∧
  decode false 0xD012#16 = .ok (.drw 0#4 1#4 2#4) ∧ decode false 0xE19E#16 = .ok (.skp 1#4) ∧
  decode false 0xF255#16 = .ok (.ldMemVx 2#4) ∧ decode true 0x5121#16 = .ok (.seReg 1#4 2#4 1#4) ∧
  decode false 0x5121#16 = .error (.unknownOpcode 0x5121#16) ∧
  decode false 0x0123#16 = .error (.unknownOpcode 0x0123#16)

/-- Decode and encode agree: the word of a well-formed instruction decodes to it, with every operand at every value, and
as the two bytes in memory order (R92, R95, R65). -/
def Obligations.DecodeOfEncode : Prop :=
  ∀ (loose : Bool) (i : Instr) (rest : List Byte), i.wf loose = true →
    decode loose (encode i) = .ok i ∧
    decodeBytes loose (hiByte (encode i) :: loByte (encode i) :: rest) = .ok (i, rest)

/-- Each word has one meaning: what decodes is well-formed and encodes to the word it came from. -/
def Obligations.EncodeOfDecode : Prop :=
  ∀ (loose : Bool) (w : Word) (i : Instr), decode loose w = .ok i → encode i = w ∧ i.wf loose = true

/-- Decoding follows the table of R95 (R96, R98, R100): a decoded word selects the row of its instruction and no other
row, and a word is rejected, by name, exactly when it selects no row. -/
def Obligations.DecodeFollowsOpcodeTable : Prop :=
  ∀ (loose : Bool) (w : Word),
    (∀ i, decode loose w = .ok i →
      (rowOf loose i).selects w = true ∧ rowOf loose i ∈ opcodeTable loose ∧
      ∀ row ∈ opcodeTable loose, row.selects w = true → row = rowOf loose i) ∧
    (decode loose w = .error (.unknownOpcode w) ↔ ∀ row ∈ opcodeTable loose, row.selects w = false)

/-! ## The step -/

/-- A step runs the decoded instruction (R102): in a machine ready to execute, with the bytes at PC decoding to `i`, the
step is `exec i` of the state whose next event has been taken; with no event listed and a host that delivers STEP alone
that is the state itself (log 10). -/
def Obligations.StepRunsDecodedInstruction : Prop :=
  ∀ (s : State) (i : Instr), Ready s → Fetchable s → decode s.params.loose59 (wordAtPc s) = .ok i →
    i.wf s.params.loose59 = true ∧ step s = exec i s.takeEvent ∧
      (s.events = [] → s.host = .rounds .step [] → step s = exec i s)

/-- The three fatal conditions of R260: the offending word is reported in `halt`, under a code of its own, and no further
step executes anything. That the report is the record in `halt`, with a code and the word, and that the machine stays there,
is the spec's decisions D20 and D21 (R36, R263, R264, R265); that it is a next state is log 11. -/
def Obligations.FatalConditionsHalt : Prop :=
  ∀ (s : State) (code : FaultCode), Ready s → Fetchable s →
    (code = .stackUnderflow ∧ wordAtPc s = 0x00EE#16 ∧ s.sp = 0 ∨
      code = .stackOverflow ∧ opField (wordAtPc s) = 2#4 ∧ s.sp = 16 ∨
      code = .unknownOpcode ∧ ∀ row ∈ opcodeTable s.params.loose59, row.selects (wordAtPc s) = false) →
    ∃ t r, step s = .next t ∧ t.halt = some r ∧ r.code = code ∧ r.word = some (wordAtPc s) ∧
      applyEvent .step t = .next t

/-- Faults are precise (the spec's decision D20, R262, R264): a step that records a fault changes nothing but `halt`
(and takes its event); the record holds the PC of the step, and its word, if it has one, is the word at that PC. -/
def Obligations.FaultsArePrecise : Prop :=
  ∀ (s t : State), step s = .next t → s.halt = none → t.halt ≠ none →
    ∃ r, t = { s.takeEvent with halt := some r } ∧ r.pc = s.pc ∧ ∀ w, r.word = some w → w = wordAtPc s

/-- After a halt no event changes the state (the spec's decision D20, R265): no step, no tick, no key event. -/
def Obligations.HaltedMachineIsFrozen : Prop :=
  ∀ (s : State) (e : Event), s.halt ≠ none → applyEvent e s = .next s ∧ step s = .next s.takeEvent

/-- The wait gate (R35, R102, R279; the spec's decision D30; the hold as an identity step is log 14): while it is closed a
STEP changes nothing, and of the four events exactly a key-down opens it. -/
def Obligations.WaitGateHoldsExecutor : Prop :=
  ∀ (s : State), s.halt = none → s.waiting = true →
    applyEvent .step s = .next s ∧
    ∀ (e : Event) (t : State), applyEvent e s = .next t →
      t.pc = s.pc ∧ (t.waiting = false ↔ ∃ k, e = .keyDown k)

/-- A fetch at an odd PC (the spec's decisions D12 and D13, R90): MisalignedFetch when odd PCs are not allowed, whatever
the bytes; with them allowed, PC = 0xFFF runs past memory. No word is recorded. -/
def Obligations.OddFetchHalts : Prop :=
  ∀ (s : State), Ready s → s.pc.toNat % 2 = 1 →
    (s.params.allowOddPc = false →
      step s = .next { s.takeEvent with halt := some ⟨.misalignedFetch, s.pc, none, s.pc.toNat⟩ }) ∧
    (s.params.allowOddPc = true → s.pc = 0xFFF#12 →
      step s = .next { s.takeEvent with halt := some ⟨.memOutOfRange, s.pc, none, 0x1000⟩ })

/-- Every state has a next state (R271, R265): no step of the machine ends in a refusal or in an outcome other than
next. A fault of the spec is a next state with `halt` set (log 11). -/
def Obligations.StepAlwaysAnswersNext : Prop := ∀ s : State, ∃ t, step s = .next t

/-- The canonical form of memory is an invariant: every step keeps it (the model's own invariant, Machine/Memory.lean). -/
def Obligations.StepKeepsMemoryCanonical : Prop :=
  ∀ s t : State, s.mem.wf = true → step s = .next t → t.mem.wf = true

/-- `COMPAT` and the other launch parameters are fixed for the run (R37, R280), and so is the source of its events (the
model's own, log 10): no instruction and no event writes them. -/
def Obligations.StepKeepsLaunchParameters : Prop :=
  ∀ s t : State, step s = .next t → t.params = s.params ∧ t.host = s.host

/-- `COMPAT` is read by 8XY6, 8XYE, FX55 and FX65 only (R37, R99, C2): every other instruction does the same under both
values of it. -/
def Obligations.CompatReadByFourInstructions : Prop :=
  ∀ (i : Instr) (s : State) (b : Bool),
    (∀ x y, i ≠ .shr x y ∧ i ≠ .shl x y) → (∀ x, i ≠ .ldMemVx x ∧ i ≠ .ldVxMem x) →
    ∀ t, exec i s = .next t →
      exec i { s with params := { s.params with compat := b } } =
        .next { t with params := { t.params with compat := b } }

/-! ## Events -/

/-- TICK (R275): both timers are decremented by 1, floored at 0, and nothing else changes, whether or not the gate is
closed; once `halt` is set it has no effect. -/
def Obligations.TickDecrementsBothTimers : Prop :=
  ∀ s : State, ∃ t, applyEvent .tick s = .next t ∧
    (s.halt = none → t = { s with delay := t.delay, sound := t.sound } ∧
      t.delay.toNat = s.delay.toNat - 1 ∧ t.sound.toNat = s.sound.toNat - 1) ∧
    (s.halt ≠ none → t = s)

/-- KEYDOWN(k) (R277; that each event is atomic is the spec's decision D2): the key becomes pressed; in a wait the
register of the gate receives the code and the gate opens; nothing else changes. -/
def Obligations.KeyDownPressesAndEndsWait : Prop :=
  ∀ (s : State) (k : KeyCode), s.halt = none → ∃ t, applyEvent (.keyDown k) s = .next t ∧
    t = { s with key := t.key, v := t.v, waiting := false } ∧
    (∀ j : KeyCode, t.keyDown j = (decide (j = k) || s.keyDown j)) ∧
    (s.waiting = true → (t.reg s.waitReg).toNat = k.toNat ∧ RegsKept s t (fun r => r = s.waitReg)) ∧
    (s.waiting = false → RegsKept s t (fun _ => False))

/-- KEYUP(k) (R278): the key becomes released, and nothing else changes: it never affects the wait gate. -/
def Obligations.KeyUpReleasesOnly : Prop :=
  ∀ (s : State) (k : KeyCode), s.halt = none → ∃ t, applyEvent (.keyUp k) s = .next t ∧
    t = { s with key := t.key } ∧ ∀ j : KeyCode, t.keyDown j = (!decide (j = k) && s.keyDown j)

/-- A run is a sequence of events (the spec's decision D2, R273; how the events stand in State is log 10 and log 24): a
step applies the first event listed to the state with the rest to come; with none listed the first event of the source's
round, or the next event of the free source. -/
def Obligations.EventsAreAppliedInOrder : Prop :=
  ∀ (s : State) (e : Event) (rest : List Event),
    (s.events = e :: rest → step s = applyEvent e { s with events := rest }) ∧
    (s.events = [] → s.host = .rounds e rest → step s = applyEvent e { s with events := rest }) ∧
    (s.events = [] → s.host = .free →
      step s = applyEvent (Config.hostEvent s.arrivals) { s with arrivals := s.arrivals + 1 })

/-- Every interleaving is a run (R8, R273, R276; the spec's decisions D2 and D31; log 10, log 24). The events of a run are
those of the schedule of its first state, one applied by each step; any finite list of events can stand first in a
schedule, any events can be repeated for ever, and the free source's events are any infinite sequence. -/
def Obligations.EveryInterleavingIsARun : Prop :=
  ∀ (s : State) (n : Nat),
    step (s.afterSteps n) = applyEvent (s.eventAt n) (s.afterSteps n).takeEvent ∧
    (∀ h : n < s.events.length, s.eventAt n = s.events[n]) ∧
    (s.events.length ≤ n → s.host = .free →
      s.eventAt n = Config.hostEvent (s.arrivals + (n - s.events.length))) ∧
    ∀ e rest, s.events.length ≤ n → s.host = .rounds e rest →
      (e :: rest)[(n - s.events.length) % (e :: rest).length]? = some (s.eventAt n)

/-- The one assumption a claim may take is fairness (R276, the spec's decision D31): in a run with infinitely many ticks
and no key-down, a wait is a hang (the gate stays closed and PC where it is, R279) in which both timers still run down to 0
and stay there (R275): "a slow host driver must not stall timer decay". -/
def Obligations.FairWaitDrainsTimers : Prop :=
  ∀ s : State, s.halt = none → s.waiting = true → s.Fair → (∀ n k, s.eventAt n ≠ .keyDown k) →
    (∀ n, (s.afterSteps n).held = true ∧ (s.afterSteps n).pc = s.pc) ∧
    ∃ m, ∀ n, m ≤ n → (s.afterSteps n).delay = 0#8 ∧ (s.afterSteps n).sound = 0#8

/-! ## Control transfer -/

/-- 00EE (R122): with an entry on the stack, the newest entry becomes PC and the depth falls by one, nothing else
changes; with none, the fatal StackUnderflow is reported. -/
def Obligations.ReturnPopsStack : Prop :=
  ∀ s : State, (encode .ret = 0x00EE#16) ∧
    (∀ h : s.sp ≠ 0, ∃ t, exec .ret s = .next t ∧ t = { s with pc := t.pc, sp := t.sp } ∧ t.sp.val = s.sp.val - 1 ∧
      t.pc = s.stack[s.sp.val - 1]'(by omega) ∧ BytesKept s t (fun _ => False)) ∧
    (s.sp = 0 → ∃ t r, exec .ret s = .next t ∧ t.halt = some r ∧ r.code = .stackUnderflow ∧
      r.word = some 0x00EE#16 ∧ t = { s with halt := t.halt })

/-- 1NNN (R123): PC becomes NNN and nothing else changes, in every state; an odd NNN faults at the next fetch when odd
PCs are not allowed (the spec's decision D12). -/
def Obligations.JumpSetsPc : Prop :=
  ∀ (s : State) (nnn : Addr), ∃ t, exec (.jp nnn) s = .next t ∧ t.pc = nnn ∧ OnlyPc s t ∧
    (Ready t → nnn.toNat % 2 = 1 → t.params.allowOddPc = false →
      ∃ u r, step t = .next u ∧ u.halt = some r ∧ r.code = .misalignedFetch)

/-- 2NNN (R124): with room on the stack and a return address inside memory, PC + 2 is pushed, the depth rises by one, PC
becomes NNN; the older entries and everything else are unchanged. -/
def Obligations.CallPushesReturnAddress : Prop :=
  ∀ (s : State) (nnn : Addr) (h : s.sp.val < 16), Fits s 2 → ∃ t, exec (.call nnn) s = .next t ∧
    t = { s with pc := t.pc, sp := t.sp, stack := t.stack } ∧ t.pc = nnn ∧ t.sp.val = s.sp.val + 1 ∧
    (t.stack[s.sp.val]'h).toNat = s.pc.toNat + 2 ∧
    (∀ k (hk : k < 16), k ≠ s.sp.val → t.stack[k] = s.stack[k]) ∧ BytesKept s t (fun _ => False)

/-- The faults of 2NNN (R124, the spec's decisions D11 and D22): a full stack is StackOverflow, checked first; else a
return address above 0xFFF is PcOutOfRange. -/
def Obligations.CallFaults : Prop :=
  ∀ (s : State) (nnn : Addr),
    (s.sp = 16 → Halts (.call nnn) s .stackOverflow (encode (.call nnn)).toNat) ∧
    (s.sp ≠ 16 → ¬ Fits s 2 → Halts (.call nnn) s .pcOutOfRange (s.pc.toNat + 2))

/-- 3XNN and 4XNN (R125, R126): PC advances by 4 when VX = NN (3XNN) or VX is not NN (4XNN), else by 2; nothing else
changes. The hypothesis is that the new PC is an address; where it is not, see SkipPastTopHalts. -/
def Obligations.ImmediateSkips : Prop :=
  ∀ (s : State) (x : RegIdx) (nn : Byte),
    (Fits s (if s.reg x = nn then 4 else 2) → ∃ t, exec (.seImm x nn) s = .next t ∧ OnlyPc s t ∧
      t.pc.toNat = s.pc.toNat + (if s.reg x = nn then 4 else 2)) ∧
    (Fits s (if s.reg x ≠ nn then 4 else 2) → ∃ t, exec (.sneImm x nn) s = .next t ∧ OnlyPc s t ∧
      t.pc.toNat = s.pc.toNat + (if s.reg x ≠ nn then 4 else 2))

/-- 5XY0 and 9XY0 (R127, R128): PC advances by 4 when VX = VY (5XY0) or VX is not VY (9XY0), else by 2, whatever the low
nibble that `LOOSE_5_9` admits (R97); nothing else changes. -/
def Obligations.RegisterSkips : Prop :=
  ∀ (s : State) (x y : RegIdx) (n : BitVec 4),
    (Fits s (if s.reg x = s.reg y then 4 else 2) → ∃ t, exec (.seReg x y n) s = .next t ∧ OnlyPc s t ∧
      t.pc.toNat = s.pc.toNat + (if s.reg x = s.reg y then 4 else 2)) ∧
    (Fits s (if s.reg x ≠ s.reg y then 4 else 2) → ∃ t, exec (.sneReg x y n) s = .next t ∧ OnlyPc s t ∧
      t.pc.toNat = s.pc.toNat + (if s.reg x ≠ s.reg y then 4 else 2))

/-- A skip whose new PC would be above 0xFFF is PcOutOfRange with that target (the spec's decision D11; R120, R125), for
all six skips; for the key skips where the key look-up does not itself fault (R266). -/
def Obligations.SkipPastTopHalts : Prop :=
  ∀ (s : State) (i : Instr) (c : Bool), skipCondition s i = some c →
    (∀ x, i = .skp x ∨ i = .sknp x → (s.reg x).toNat ≤ 0xF ∨ s.params.keyIndex ≠ .fault) →
    ¬ Fits s (if c then 4 else 2) → Halts i s .pcOutOfRange (s.pc.toNat + (if c then 4 else 2))

/-- BNNN (R129): PC becomes the integer sum NNN + V0 and nothing else changes; a sum above 0xFFF is PcOutOfRange (the
spec's decision D11). -/
def Obligations.JumpWithOffset : Prop :=
  ∀ (s : State) (nnn : Addr),
    (nnn.toNat + (s.reg 0#4).toNat ≤ 0xFFF →
      ∃ t, exec (.jpV0 nnn) s = .next t ∧ OnlyPc s t ∧ t.pc.toNat = nnn.toNat + (s.reg 0#4).toNat) ∧
    (nnn.toNat + (s.reg 0#4).toNat > 0xFFF → Halts (.jpV0 nnn) s .pcOutOfRange (nnn.toNat + (s.reg 0#4).toNat))

/-- PC never wraps (the spec's decision D11; R120): an instruction that is no jump and no skip, at a PC from which
`Advance(2)` leaves memory, halts with PcOutOfRange, or with its own check where that fails first (R266: MemOutOfRange of
FX33, FX55, FX65, DXYN; IAddOverflow of FX1E on a sum above 0xFFF). -/
def Obligations.FallThroughPastTopHalts : Prop :=
  ∀ (s : State) (i : Instr), ¬ IsJump i → skipCondition s i = none → ¬ Fits s 2 →
    Halts i s .pcOutOfRange (s.pc.toNat + 2) ∨
    ((∃ x, i = .ldB x ∧ s.i.toNat + 2 > 0xFFF ∨ (i = .ldMemVx x ∨ i = .ldVxMem x) ∧ s.i.toNat + x.toNat > 0xFFF) ∨
      ∃ x y n, i = .drw x y n ∧ s.i.toNat + n.toNat > 0x1000) ∧ (∃ a, Halts i s .memOutOfRange a) ∨
    ∃ x, i = .addI x ∧ s.params.iAddOverflow = .fault ∧ s.i.toNat + (s.reg x).toNat > 0xFFF ∧
      Halts i s .iAddOverflow (s.i.toNat + (s.reg x).toNat)

/-- PC after each instruction (R121): when no fault is recorded, PC has advanced by 2; by 4 for a conditional skip whose
condition holds; 1NNN and BNNN set it to their target, 2NNN to NNN, 00EE to the popped entry (R122, R123, R124, R129). The
condition of a key skip with VX above 0xF is that of R242, the spec's decision D17. -/
def Obligations.PcAfterEachInstruction : Prop :=
  ∀ (s t : State) (i : Instr), exec i s = .next t → s.halt = none → t.halt = none →
    match i with
    | .jp nnn | .call nnn => t.pc = nnn
    | .jpV0 nnn => t.pc.toNat = nnn.toNat + (s.reg 0#4).toNat
    | .ret => ∃ h : s.sp.val - 1 < 16, t.pc = s.stack[s.sp.val - 1]
    | _ => t.pc.toNat = s.pc.toNat + (if skipCondition s i = some true then 4 else 2)

/-! ## Loads, arithmetic, logic, shifts, random -/

/-- 6XNN (R152): VX becomes NN, PC advances by 2, nothing else changes. -/
def Obligations.LoadImmediate : Prop :=
  ∀ (s : State) (x : RegIdx) (nn : Byte), Fits s 2 →
    encode (.ldImm x nn) &&& 0xF000#16 = 0x6000#16 ∧
    ∃ t, exec (.ldImm x nn) s = .next t ∧ t.reg x = nn ∧ t.pc.toNat = s.pc.toNat + 2 ∧ OnlyRegsAndPc s t (· = x)

/-- 7XNN (R153): VX becomes (VX + NN) mod 256, PC advances by 2, nothing else changes: no flag is written. -/
def Obligations.AddImmediate : Prop :=
  ∀ (s : State) (x : RegIdx) (nn : Byte), Fits s 2 →
    encode (.addImm x nn) &&& 0xF000#16 = 0x7000#16 ∧
    ∃ t, exec (.addImm x nn) s = .next t ∧ (t.reg x).toNat = ((s.reg x).toNat + nn.toNat) % 256 ∧
      t.pc.toNat = s.pc.toNat + 2 ∧ OnlyRegsAndPc s t (· = x)

/-- 8XY0 to 8XY3 (R154 to R157): VX becomes VY, or the bitwise OR, AND, XOR of VX and VY, bit by bit; PC advances by 2,
nothing else changes: VF is not written unless X = F. -/
def Obligations.CopyAndLogic : Prop :=
  ∀ (s : State) (x y : RegIdx), Fits s 2 →
    (∃ t, exec (.ldReg x y) s = .next t ∧ t.reg x = s.reg y ∧ t.pc.toNat = s.pc.toNat + 2 ∧
      OnlyRegsAndPc s t (· = x)) ∧
    (∃ t, exec (.orReg x y) s = .next t ∧
      (∀ b, (t.reg x).getLsbD b = ((s.reg x).getLsbD b || (s.reg y).getLsbD b)) ∧ t.pc.toNat = s.pc.toNat + 2 ∧
      OnlyRegsAndPc s t (· = x)) ∧
    (∃ t, exec (.andReg x y) s = .next t ∧
      (∀ b, (t.reg x).getLsbD b = ((s.reg x).getLsbD b && (s.reg y).getLsbD b)) ∧ t.pc.toNat = s.pc.toNat + 2 ∧
      OnlyRegsAndPc s t (· = x)) ∧
    (∃ t, exec (.xorReg x y) s = .next t ∧
      (∀ b, (t.reg x).getLsbD b = ((s.reg x).getLsbD b != (s.reg y).getLsbD b)) ∧ t.pc.toNat = s.pc.toNat + 2 ∧
      OnlyRegsAndPc s t (· = x)) ∧
    encode (.ldReg x y) &&& 0xF00F#16 = 0x8000#16 ∧ encode (.orReg x y) &&& 0xF00F#16 = 0x8001#16 ∧
    encode (.andReg x y) &&& 0xF00F#16 = 0x8002#16 ∧ encode (.xorReg x y) &&& 0xF00F#16 = 0x8003#16

/-- 8XY4 (R158): VX becomes (VX + VY) mod 256; VF becomes 1 when the sum is 256 or more and is otherwise unchanged. When
X = F the flag write comes last (the spec's decision D16, `VF_ORDER` = Table). -/
def Obligations.AddRegisters : Prop :=
  ∀ (s : State) (x y : RegIdx), Fits s 2 → TableOrder s x → ∃ t, exec (.addReg x y) s = .next t ∧
    (x ≠ regF → (t.reg x).toNat = ((s.reg x).toNat + (s.reg y).toNat) % 256) ∧
    (t.reg regF).toNat =
      (if (s.reg x).toNat + (s.reg y).toNat ≥ 256 then 1
        else if x = regF then (s.reg x).toNat + (s.reg y).toNat else (s.reg regF).toNat) ∧
    t.pc.toNat = s.pc.toNat + 2 ∧ OnlyRegsAndPc s t (fun r => r = x ∨ r = regF)

/-- 8XY5 and 8XY7 (R159, R161): VX becomes the difference VX - VY, or VY - VX, mod 256; VF becomes 1 when there is no
borrow and is otherwise unchanged. When X = F the flag write comes last (the spec's decision D16, `VF_ORDER` = Table). -/
def Obligations.SubtractRegisters : Prop :=
  ∀ (s : State) (x y : RegIdx), Fits s 2 → TableOrder s x →
    (∃ t, exec (.subReg x y) s = .next t ∧
      (x ≠ regF → (t.reg x).toNat = ((s.reg x).toNat + 256 - (s.reg y).toNat) % 256) ∧
      (t.reg regF).toNat =
        (if (s.reg x).toNat ≥ (s.reg y).toNat then 1
          else if x = regF then (s.reg x).toNat + 256 - (s.reg y).toNat else (s.reg regF).toNat) ∧
      t.pc.toNat = s.pc.toNat + 2 ∧ OnlyRegsAndPc s t (fun r => r = x ∨ r = regF)) ∧
    ∃ t, exec (.subn x y) s = .next t ∧
      (x ≠ regF → (t.reg x).toNat = ((s.reg y).toNat + 256 - (s.reg x).toNat) % 256) ∧
      (t.reg regF).toNat =
        (if (s.reg y).toNat ≥ (s.reg x).toNat then 1
          else if x = regF then (s.reg y).toNat + 256 - (s.reg x).toNat else (s.reg regF).toNat) ∧
      t.pc.toNat = s.pc.toNat + 2 ∧ OnlyRegsAndPc s t (fun r => r = x ∨ r = regF)

/-- 8XY6 and 8XYE (R160, R162): the source is VX when `COMPAT` is true and VY otherwise; VX becomes the source shifted by
one, VF the bit shifted out, always written. When X = F the result is written last (the spec's decision D16, `VF_ORDER` =
Table). -/
def Obligations.Shifts : Prop :=
  ∀ (s : State) (x y : RegIdx) (op : Byte), Fits s 2 → TableOrder s x →
    op = (if s.params.compat = true then s.reg x else s.reg y) →
    (∃ t, exec (.shr x y) s = .next t ∧ (t.reg x).toNat = op.toNat / 2 ∧
      (x ≠ regF → (t.reg regF).toNat = op.toNat % 2) ∧
      t.pc.toNat = s.pc.toNat + 2 ∧ OnlyRegsAndPc s t (fun r => r = x ∨ r = regF)) ∧
    ∃ t, exec (.shl x y) s = .next t ∧ (t.reg x).toNat = op.toNat * 2 % 256 ∧
      (x ≠ regF → (t.reg regF).toNat = op.toNat / 128) ∧
      t.pc.toNat = s.pc.toNat + 2 ∧ OnlyRegsAndPc s t (fun r => r = x ∨ r = regF)

/-- The flag-destination corner (R164, the spec's decision D16) with `VF_ORDER` = Draw: for 8FY4, 8FY5, 8FY6, 8FY7 and
8FYE the final VF is the value of one of the two writes, and one free input has been consumed (log 9). -/
def Obligations.FlagDestinationDraw : Prop :=
  ∀ (s : State) (y : RegIdx) (i : Instr) (result : Byte) (flag : Option Byte),
    Fits s 2 → s.params.vfOrder = .draw →
    (i = .addReg regF y ∧ result = addResult (s.reg regF) (s.reg y) ∧ flag = carryFlag (s.reg regF) (s.reg y) ∨
      i = .subReg regF y ∧ result = subResult (s.reg regF) (s.reg y) ∧ flag = noBorrowFlag (s.reg regF) (s.reg y) ∨
      i = .subn regF y ∧ result = subResult (s.reg y) (s.reg regF) ∧ flag = noBorrowFlag (s.reg y) (s.reg regF) ∨
      i = .shr regF y ∧ result = shrResult (shiftSource s regF y) ∧ flag = some (shrFlag (shiftSource s regF y)) ∨
      i = .shl regF y ∧ result = shlResult (shiftSource s regF y) ∧ flag = some (shlFlag (shiftSource s regF y))) →
    ∃ t, exec i s = .next t ∧ (t.reg regF = result ∨ flag = some (t.reg regF)) ∧
      t = { s with v := t.v, pc := t.pc, draws := s.draws + 1 } ∧ RegsKept s t (· = regF) ∧
      t.pc.toNat = s.pc.toNat + 2

/-- The carry and borrow flag (R151, R24): on a completed 8XY4, 8XY5 or 8XY7 whose destination is not VF, VF is 1 on a
carry, or when there is no borrow, and keeps its old value otherwise: it is never cleared. When X = F, VF ends as the
result or as 1. The shifts always write VF, with the bit shifted out, and 7XNN writes it only as its destination. -/
def Obligations.ArithmeticNeverClearsVf : Prop :=
  ∀ (s t : State) (x y : RegIdx) (nn : Byte), t.halt = none →
    (exec (.addReg x y) s = .next t →
      (x ≠ regF → t.reg regF = if (s.reg x).toNat + (s.reg y).toNat ≥ 256 then 1#8 else s.reg regF) ∧
      (x = regF → t.reg regF = 1#8 ∨ t.reg regF = s.reg x + s.reg y)) ∧
    (exec (.subReg x y) s = .next t →
      (x ≠ regF → t.reg regF = if (s.reg y).toNat ≤ (s.reg x).toNat then 1#8 else s.reg regF) ∧
      (x = regF → t.reg regF = 1#8 ∨ t.reg regF = s.reg x - s.reg y)) ∧
    (exec (.subn x y) s = .next t →
      (x ≠ regF → t.reg regF = if (s.reg x).toNat ≤ (s.reg y).toNat then 1#8 else s.reg regF) ∧
      (x = regF → t.reg regF = 1#8 ∨ t.reg regF = s.reg y - s.reg x)) ∧
    (exec (.shr x y) s = .next t → x ≠ regF →
      (t.reg regF).toNat = (if s.params.compat = true then s.reg x else s.reg y).toNat % 2) ∧
    (exec (.shl x y) s = .next t → x ≠ regF →
      (t.reg regF).toNat = (if s.params.compat = true then s.reg x else s.reg y).toNat / 128) ∧
    (exec (.addImm x nn) s = .next t → x ≠ regF → t.reg regF = s.reg regF)

/-- CXNN (R163, the spec's decision D19): VX becomes the drawn byte AND NN. The drawn byte is a free input, the next one
of the run (log 8): the statement holds whatever it is. PC advances by 2, nothing else changes. -/
def Obligations.RandomByteUnderMask : Prop :=
  ∀ (s : State) (x : RegIdx) (nn : Byte), Fits s 2 → ∃ t, exec (.rnd x nn) s = .next t ∧
    t.reg x = (Config.draw8 s.draws &&& nn) ∧ (∀ b, nn.getLsbD b = false → (t.reg x).getLsbD b = false) ∧
    t.pc.toNat = s.pc.toNat + 2 ∧ t = { s with v := t.v, pc := t.pc, draws := s.draws + 1 } ∧
    RegsKept s t (· = x) ∧ BytesKept s t (fun _ => False)

/-! ## Address register and memory -/

/-- ANNN (R190): I becomes NNN, PC advances by 2, nothing else changes. -/
def Obligations.LoadAddress : Prop :=
  ∀ (s : State) (nnn : Addr), Fits s 2 →
    encode (.ldI nnn) &&& 0xF000#16 = 0xA000#16 ∧
    ∃ t, exec (.ldI nnn) s = .next t ∧ t.i = nnn ∧ t.pc.toNat = s.pc.toNat + 2 ∧
      t = { s with i := t.i, pc := t.pc } ∧ BytesKept s t (fun _ => False)

/-- FX1E (R191): I becomes I + VX; a sum above 0xFFF wraps modulo 4096 or is IAddOverflow, by `I_ADD_OVERFLOW` (the
spec's decision D14); VF is not written. -/
def Obligations.AddToAddress : Prop :=
  ∀ (s : State) (x : RegIdx),
    (Fits s 2 → s.i.toNat + (s.reg x).toNat ≤ 0xFFF ∨ s.params.iAddOverflow = .wrap →
      ∃ t, exec (.addI x) s = .next t ∧ t.i.toNat = (s.i.toNat + (s.reg x).toNat) % 4096 ∧
        t.pc.toNat = s.pc.toNat + 2 ∧ t = { s with i := t.i, pc := t.pc } ∧ BytesKept s t (fun _ => False)) ∧
    (s.i.toNat + (s.reg x).toNat > 0xFFF → s.params.iAddOverflow = .fault →
      Halts (.addI x) s .iAddOverflow (s.i.toNat + (s.reg x).toNat))

/-- FX29 (R192, R70): I becomes the font base 0x000 plus five times the low nibble of VX, PC advances by 2, nothing else
changes; the glyph bytes are not read. -/
def Obligations.PointAtGlyph : Prop :=
  ∀ (s : State) (x : RegIdx), Fits s 2 →
    encode (.ldF x) &&& 0xF0FF#16 = 0xF029#16 ∧
    ∃ t, exec (.ldF x) s = .next t ∧ t.i.toNat = 0x000 + (s.reg x).toNat % 16 * 5 ∧ t.pc.toNat = s.pc.toNat + 2 ∧
      t = { s with i := t.i, pc := t.pc } ∧ BytesKept s t (fun _ => False)

/-- FX33 (R193): the hundreds, tens and units of VX are stored at I, I+1, I+2, all inside memory; I and every other byte
and component are unchanged. -/
def Obligations.StoreDecimalDigits : Prop :=
  ∀ (s : State) (x : RegIdx), Fits s 2 → s.i.toNat + 2 ≤ 0xFFF → ∃ t, exec (.ldB x) s = .next t ∧
    (t.mem.read s.i.toNat).toNat = (s.reg x).toNat / 100 ∧
    (t.mem.read (s.i.toNat + 1)).toNat = (s.reg x).toNat / 10 % 10 ∧
    (t.mem.read (s.i.toNat + 2)).toNat = (s.reg x).toNat % 10 ∧
    BytesKept s t (fun a => s.i.toNat ≤ a ∧ a ≤ s.i.toNat + 2) ∧
    t.pc.toNat = s.pc.toNat + 2 ∧ t = { s with mem := t.mem, pc := t.pc }

/-- FX55 (R194): V0..VX are stored at I..I+X, all inside memory; I becomes (I + X + 1) mod 4096 unless `COMPAT` is true,
in which case it is unchanged; every other byte and component is unchanged. -/
def Obligations.StoreRegisters : Prop :=
  ∀ (s : State) (x : RegIdx), Fits s 2 → s.i.toNat + x.toNat ≤ 0xFFF → ∃ t, exec (.ldMemVx x) s = .next t ∧
    (∀ k : RegIdx, k.toNat ≤ x.toNat → t.mem.read (s.i.toNat + k.toNat) = s.reg k) ∧
    BytesKept s t (fun a => s.i.toNat ≤ a ∧ a ≤ s.i.toNat + x.toNat) ∧
    t.i.toNat = (if s.params.compat = true then s.i.toNat else (s.i.toNat + x.toNat + 1) % 4096) ∧
    t.pc.toNat = s.pc.toNat + 2 ∧ t = { s with mem := t.mem, i := t.i, pc := t.pc }

/-- FX65 (R195): V0..VX become the bytes at I..I+X, all inside memory; I moves as for FX55; the registers above VX and
everything else are unchanged. -/
def Obligations.LoadRegisters : Prop :=
  ∀ (s : State) (x : RegIdx), Fits s 2 → s.i.toNat + x.toNat ≤ 0xFFF → ∃ t, exec (.ldVxMem x) s = .next t ∧
    (∀ k : RegIdx, k.toNat ≤ x.toNat → t.reg k = s.mem.read (s.i.toNat + k.toNat)) ∧
    RegsKept s t (fun r => r.toNat ≤ x.toNat) ∧
    t.i.toNat = (if s.params.compat = true then s.i.toNat else (s.i.toNat + x.toNat + 1) % 4096) ∧
    t.pc.toNat = s.pc.toNat + 2 ∧ t = { s with v := t.v, i := t.i, pc := t.pc } ∧ BytesKept s t (fun _ => False)

/-- An access that runs past 0xFFF halts with MemOutOfRange and writes nothing (the spec's decision D13; R63, R193, R194,
R195, R222), at every PC: the check comes before that of the final Advance (R266). The address recorded is the first one
above 0xFFF, or the one the instruction's check names, by the model's own parameter (log 12). -/
def Obligations.OutOfRangeAccessHalts : Prop :=
  ∀ (s : State) (i : Instr) (last : Nat), last > 0xFFF →
    ((∃ x, i = .ldB x ∧ last = s.i.toNat + 2 ∨ (i = .ldMemVx x ∨ i = .ldVxMem x) ∧ last = s.i.toNat + x.toNat) ∨
      ∃ x y n, i = .drw x y n ∧ n ≠ 0#4 ∧ last = s.i.toNat + n.toNat - 1) →
    Halts i s .memOutOfRange (if s.params.memFaultInfo = .firstAbove then 0x1000 else last)

/-- A store is seen by the very next fetch (R77): after a completed FX33 or FX55, the word the next step runs is made of
the bytes just stored at its two addresses, and of the bytes there before where nothing was stored, in every overlap of one
byte or two. -/
def Obligations.StoreSeenByNextFetch : Prop :=
  ∀ (s t : State) (i j : Instr), (∃ x, i = .ldB x ∨ i = .ldMemVx x) →
    exec i s = .next t → t.halt = none → Ready s → Fetchable t →
    decode s.params.loose59
      (wordOfBytes ((storedByte s i (s.pc.toNat + 2)).getD (s.mem.read (s.pc.toNat + 2)))
        ((storedByte s i (s.pc.toNat + 3)).getD (s.mem.read (s.pc.toNat + 3)))) = .ok j →
    step t = exec j t.takeEvent

/-! ## Display -/

/-- 00E0 (R221): every cell becomes 0, PC advances by 2, nothing else changes: VF is not touched and no Repaint is
emitted (the spec's decision D28). -/
def Obligations.ClearDisplay : Prop :=
  ∀ s : State, Fits s 2 → ∃ t, exec .cls s = .next t ∧ (∀ c r, t.fb.cell c r = false) ∧
    t.pc.toNat = s.pc.toNat + 2 ∧ t = { s with fb := t.fb, pc := t.pc } ∧ BytesKept s t (fun _ => False)

/-- DXYN (R222 to R226): every cell becomes its old value XOR the sprite's pixel on it, with coordinates wrapped mod 64
and mod 32; VF becomes 1 when some cell that was 1 lies under a 1 pixel and 0 otherwise; one Repaint is emitted; PC
advances by 2 and nothing else changes. Bit 7 of a sprite byte is the leftmost pixel (the spec's decision D18,
log 17). -/
def Obligations.DrawSprite : Prop :=
  ∀ (s : State) (x y : RegIdx) (n : BitVec 4), Fits s 2 → SpriteInMemory s n → ∃ t, exec (.drw x y n) s = .next t ∧
    (∀ c r, t.fb.cell c r = (s.fb.cell c r != spritePixel s x y n c r)) ∧
    (t.reg regF = 1#8 ∧ (∃ c r, s.fb.cell c r = true ∧ spritePixel s x y n c r = true) ∨
      t.reg regF = 0#8 ∧ ∀ c r, ¬ (s.fb.cell c r = true ∧ spritePixel s x y n c r = true)) ∧
    t.pc.toNat = s.pc.toNat + 2 ∧
    t = { s with fb := t.fb, v := t.v, repaints := s.repaints + 1, pc := t.pc } ∧
    RegsKept s t (· = regF) ∧ BytesKept s t (fun _ => False)

/-- Drawing is its own inverse (R228): a second identical DXYN, at the same PC, with VX and VY unchanged by the first (I
and the sprite bytes always are), restores the framebuffer, and sets VF to 1 exactly when some cell under a 1 pixel was 0
before the first. -/
def Obligations.DrawTwiceRestoresDisplay : Prop :=
  ∀ (s t u : State) (x y : RegIdx) (n : BitVec 4), s.halt = none →
    exec (.drw x y n) s = .next t → t.halt = none → t.reg x = s.reg x → t.reg y = s.reg y → exec (.drw x y n) { t with pc := s.pc } = .next u →
    u.halt = none ∧ u.fb = s.fb ∧
    (u.reg regF = 1#8 ↔ ∃ c r, spritePixel s x y n c r = true ∧ s.fb.cell c r = false)

/-! ## Keys and timers -/

/-- EX9E and EXA1 (R240 to R242): PC advances by 4 when the key VX is pressed (EX9E) or not pressed (EXA1), else by 2,
nothing else changes; a code above 0xF follows `KEY_INDEX` (the spec's decision D17), and with Fault it is
KeyIndexOutOfRange. -/
def Obligations.KeySkips : Prop :=
  ∀ (s : State) (x : RegIdx) (i : Instr) (c : Bool), i = .skp x ∨ i = .sknp x → skipCondition s i = some c →
    ((s.reg x).toNat ≤ 0xF ∨ s.params.keyIndex ≠ .fault → Fits s (if c then 4 else 2) →
      ∃ t, exec i s = .next t ∧ OnlyPc s t ∧ t.pc.toNat = s.pc.toNat + (if c then 4 else 2)) ∧
    ((s.reg x).toNat > 0xF → s.params.keyIndex = .fault → Halts i s .keyIndexOutOfRange (s.reg x).toNat)

/-- FX07 (R243): VX becomes the delay timer, PC advances by 2, nothing else changes. -/
def Obligations.ReadDelayTimer : Prop :=
  ∀ (s : State) (x : RegIdx), Fits s 2 →
    encode (.ldVxDt x) &&& 0xF0FF#16 = 0xF007#16 ∧
    ∃ t, exec (.ldVxDt x) s = .next t ∧ t.reg x = s.delay ∧ t.pc.toNat = s.pc.toNat + 2 ∧ OnlyRegsAndPc s t (· = x)

/-- FX0A (R244): the gate closes with X as its register and PC advances by 2, nothing else changes; a key already held
does not end the wait; the next key-down with code k then writes VX and opens the gate. -/
def Obligations.WaitForKey : Prop :=
  ∀ (s : State) (x : RegIdx) (k : KeyCode), s.halt = none → Fits s 2 → ∃ t u, exec (.ldVxK x) s = .next t ∧
    t.waiting = true ∧ t.waitReg = x ∧ t.pc.toNat = s.pc.toNat + 2 ∧
    t = { s with waiting := true, waitReg := x, pc := t.pc } ∧ BytesKept s t (fun _ => False) ∧
    applyEvent (.keyDown k) t = .next u ∧ (u.reg x).toNat = k.toNat ∧ u.waiting = false ∧ u.pc = t.pc

/-- FX15 and FX18 (R245, R246): the delay timer, or the sound timer, becomes VX, PC advances by 2, nothing else
changes. No instruction reads the sound timer: with another value in it, every instruction does the same. -/
def Obligations.SetTimers : Prop :=
  ∀ (s : State) (x : RegIdx),
    (Fits s 2 → encode (.ldDtVx x) &&& 0xF0FF#16 = 0xF015#16 ∧
      ∃ t, exec (.ldDtVx x) s = .next t ∧ t.delay = s.reg x ∧ t.pc.toNat = s.pc.toNat + 2 ∧
        t = { s with delay := t.delay, pc := t.pc } ∧ BytesKept s t (fun _ => False)) ∧
    (Fits s 2 → encode (.ldStVx x) &&& 0xF0FF#16 = 0xF018#16 ∧
      ∃ t, exec (.ldStVx x) s = .next t ∧ t.sound = s.reg x ∧ t.pc.toNat = s.pc.toNat + 2 ∧
        t = { s with sound := t.sound, pc := t.pc } ∧ BytesKept s t (fun _ => False)) ∧
    ∀ (i : Instr) (t : State) (b : Byte), exec i s = .next t →
      ∃ b', exec i { s with sound := b } = .next { t with sound := b' }

/-! ## The whole machine -/

/-- The instructions that reach memory (R61): a byte of memory that an instruction changes is stored by FX33 at I..I+2 or
by FX55 at I..I+X; every other instruction leaves every byte as it was. -/
def Obligations.OnlyTwoInstructionsStore : Prop :=
  ∀ (s t : State) (i : Instr) (a : Nat), exec i s = .next t → t.mem.read a ≠ s.mem.read a →
    s.i.toNat ≤ a ∧ a ≤ 0xFFF ∧
    ∃ x, i = .ldB x ∧ a ≤ s.i.toNat + 2 ∨ i = .ldMemVx x ∧ a ≤ s.i.toNat + x.toNat

/-- Which general registers an instruction writes (R22, R23): a register whose value changes is one that the table of
R22 lists for the instruction; VF changes only as a destination or as the flag of 8XY4 to 8XY7, 8XYE and DXYN. -/
def Obligations.OnlyListedRegistersChange : Prop :=
  ∀ (s t : State) (i : Instr) (r : RegIdx), exec i s = .next t → t.reg r ≠ s.reg r → writesReg i r

/-- Who writes what (R25, R29, R31 to R35, R38, C6): I changes only by ANNN, FX1E, FX29, and by FX55 and FX65 when
`COMPAT` is false; the stack and SP only by 2NNN and 00EE; the framebuffer only by 00E0 and DXYN; the timers only by FX15
and FX18; the gate only by FX0A; no instruction writes a key. Only DXYN emits Repaint, and 00E0 emits none, is the spec's
decision D28 (R226); the counter of them is the model's (log 16). -/
def Obligations.OnlyListedWritersChangeState : Prop :=
  ∀ (s t : State) (i : Instr), exec i s = .next t →
    (t.i ≠ s.i → (∃ nnn, i = .ldI nnn) ∨ (∃ x, i = .addI x ∨ i = .ldF x) ∨
      (∃ x, i = .ldMemVx x ∨ i = .ldVxMem x) ∧ s.params.compat = false) ∧
    (t.stack ≠ s.stack ∨ t.sp.val > s.sp.val → ∃ nnn, i = .call nnn) ∧
    (t.sp.val < s.sp.val → i = .ret) ∧
    (t.fb ≠ s.fb → i = .cls ∨ ∃ x y n, i = .drw x y n) ∧
    (t.delay ≠ s.delay → ∃ x, i = .ldDtVx x) ∧
    (t.sound ≠ s.sound → ∃ x, i = .ldStVx x) ∧
    (t.waiting ≠ s.waiting ∨ t.waitReg ≠ s.waitReg → ∃ x, i = .ldVxK x) ∧
    t.key = s.key ∧ (t.repaints ≠ s.repaints → ∃ x y n, i = .drw x y n)

/-! ## Reset and the end of a run -/

/-- What reset leaves, for every launch (R40, R300): V zero, PC = 0x200, SP = 0, no fault; the spec's decisions D6 to D10
for I, the timers, the framebuffer, the keys and the gate (log 6); the parameters and the source of events as launched; memory in canonical form.
`State.reset` is the reset of the default launch (the model's choice, log 1 to log 5, log 10). -/
def Obligations.ResetValues : Prop :=
  State.reset = State.resetWith Launch.default ∧ State.reset.mem.wf = true ∧
  ∀ l : Launch, ∃ s, State.resetWith l = s ∧ (∀ r, s.reg r = 0#8) ∧ s.pc = 0x200#12 ∧ s.sp = 0 ∧ s.halt = none ∧
    s.i = 0#12 ∧ s.delay = 0#8 ∧ s.sound = 0#8 ∧ (∀ c r, s.fb.cell c r = false) ∧ (∀ k, s.keyDown k = false) ∧
    s.waiting = false ∧ s.waitReg = 0#4 ∧ s.params = l.params ∧ s.host = l.host ∧ s.events = [] ∧
    s.mem.wf = true

/-- What memory holds after reset (R69, R300 to R302): FONT at 0x000..0x04F, byte i of ROM at 0x200 + i as far as there
are addresses, INIT_FILL at every other address; a ROM longer than 3584 bytes has the same effect as its first 3584
bytes. -/
def Obligations.ResetLoadsFontAndRom : Prop :=
  ∀ (l : Launch) (a : Nat), a ≤ 0xFFF →
    (∀ h : a < 80, (State.resetWith l).mem.read a = l.font[a]) ∧
    (∀ k (h : k < l.rom.length), a = 0x200 + k → (State.resetWith l).mem.read a = l.rom[k]) ∧
    (80 ≤ a → a < 0x200 ∨ 0x200 + l.rom.length ≤ a → (State.resetWith l).mem.read a = l.fill a) ∧
    State.resetWith l = State.resetWith { l with rom := l.rom.take 3584 }

/-- The end of a run (R306, the spec's decision D26) is a fixed point of the executor: from a state that is not halted,
not waiting, at an even PC that holds a jump to itself, STEP changes nothing. -/
def Obligations.EndOfRunIsFixedPoint : Prop :=
  ∀ s : State, s.atEndOfRun = true → applyEvent .step s = .next s
end

