-- ==== Sys2Proof/Laws/Decode.lean ====
section
/-! SUPPORT. The fields of an encoded word, format by format (30_encoding.md R92). -/

namespace Sys2Proof

/-! ## The bits of an encoded word -/

theorem getLsbD_encodeNNN (op : BitVec 4) (nnn : Addr) (k : Nat) :
    (encodeNNN op nnn).getLsbD k = if k < 12 then nnn.getLsbD k else op.getLsbD (k - 12) :=
  BitVec.getLsbD_append

theorem getLsbD_encodeXNN (op : BitVec 4) (x : RegIdx) (nn : Byte) (k : Nat) :
    (encodeXNN op x nn).getLsbD k =
      if k < 12 then (if k < 8 then nn.getLsbD k else x.getLsbD (k - 8)) else op.getLsbD (k - 12) :=
  BitVec.getLsbD_append.trans (by rw [BitVec.getLsbD_append])

theorem getLsbD_encodeXYN (op : BitVec 4) (x y : RegIdx) (n : BitVec 4) (k : Nat) :
    (encodeXYN op x y n).getLsbD k =
      if k < 12 then (if k < 8 then (if k < 4 then n.getLsbD k else y.getLsbD (k - 4)) else x.getLsbD (k - 8))
      else op.getLsbD (k - 12) :=
  BitVec.getLsbD_append.trans (by rw [BitVec.getLsbD_append, BitVec.getLsbD_append])

/-! ## Its fields -/

@[simp] theorem opField_encodeNNN (op : BitVec 4) (nnn : Addr) :
    opField (encodeNNN op nnn) = op := by
  apply BitVec.eq_of_getLsbD_eq
  intro k hk
  simp only [opField, BitVec.getLsbD_extractLsb', getLsbD_encodeNNN, hk]
  split_ifs <;> first | omega | simp

@[simp] theorem nnnField_encodeNNN (op : BitVec 4) (nnn : Addr) :
    nnnField (encodeNNN op nnn) = nnn := by
  apply BitVec.eq_of_getLsbD_eq
  intro k hk
  simp only [nnnField, BitVec.getLsbD_extractLsb', getLsbD_encodeNNN, hk]
  split_ifs <;> first | omega | simp

@[simp] theorem opField_encodeXNN (op : BitVec 4) (x : RegIdx) (nn : Byte) :
    opField (encodeXNN op x nn) = op := by
  apply BitVec.eq_of_getLsbD_eq
  intro k hk
  simp only [opField, BitVec.getLsbD_extractLsb', getLsbD_encodeXNN, hk]
  split_ifs <;> first | omega | simp

@[simp] theorem xField_encodeXNN (op : BitVec 4) (x : RegIdx) (nn : Byte) :
    xField (encodeXNN op x nn) = x := by
  apply BitVec.eq_of_getLsbD_eq
  intro k hk
  simp only [xField, BitVec.getLsbD_extractLsb', getLsbD_encodeXNN, hk]
  split_ifs <;> first | omega | simp

@[simp] theorem nnField_encodeXNN (op : BitVec 4) (x : RegIdx) (nn : Byte) :
    nnField (encodeXNN op x nn) = nn := by
  apply BitVec.eq_of_getLsbD_eq
  intro k hk
  simp only [nnField, BitVec.getLsbD_extractLsb', getLsbD_encodeXNN, hk]
  split_ifs <;> first | omega | simp

@[simp] theorem opField_encodeXYN (op : BitVec 4) (x y : RegIdx) (n : BitVec 4) :
    opField (encodeXYN op x y n) = op := by
  apply BitVec.eq_of_getLsbD_eq
  intro k hk
  simp only [opField, BitVec.getLsbD_extractLsb', getLsbD_encodeXYN, hk]
  split_ifs <;> first | omega | simp

@[simp] theorem xField_encodeXYN (op : BitVec 4) (x y : RegIdx) (n : BitVec 4) :
    xField (encodeXYN op x y n) = x := by
  apply BitVec.eq_of_getLsbD_eq
  intro k hk
  simp only [xField, BitVec.getLsbD_extractLsb', getLsbD_encodeXYN, hk]
  split_ifs <;> first | omega | simp

@[simp] theorem yField_encodeXYN (op : BitVec 4) (x y : RegIdx) (n : BitVec 4) :
    yField (encodeXYN op x y n) = y := by
  apply BitVec.eq_of_getLsbD_eq
  intro k hk
  simp only [yField, BitVec.getLsbD_extractLsb', getLsbD_encodeXYN, hk]
  split_ifs <;> first | omega | simp

@[simp] theorem nField_encodeXYN (op : BitVec 4) (x y : RegIdx) (n : BitVec 4) :
    nField (encodeXYN op x y n) = n := by
  apply BitVec.eq_of_getLsbD_eq
  intro k hk
  simp only [nField, BitVec.getLsbD_extractLsb', getLsbD_encodeXYN, hk]
  split_ifs <;> first | omega | simp

/-! ## A word from its fields -/

/-- A word is its fields in format NNN. -/
theorem encodeNNN_fields (w : Word) : encodeNNN (opField w) (nnnField w) = w := by
  apply BitVec.eq_of_getLsbD_eq
  intro k hk
  rw [getLsbD_encodeNNN]
  simp only [opField, nnnField, BitVec.getLsbD_extractLsb']
  split_ifs <;> simp_all
  omega

/-- A word is its fields in format XNN. -/
theorem encodeXNN_fields (w : Word) : encodeXNN (opField w) (xField w) (nnField w) = w := by
  apply BitVec.eq_of_getLsbD_eq
  intro k hk
  rw [getLsbD_encodeXNN]
  simp only [opField, xField, nnField, BitVec.getLsbD_extractLsb']
  split_ifs <;> simp_all <;> omega

/-- A word is its fields in format XYN. -/
theorem encodeXYN_fields (w : Word) : encodeXYN (opField w) (xField w) (yField w) (nField w) = w := by
  apply BitVec.eq_of_getLsbD_eq
  intro k hk
  rw [getLsbD_encodeXYN]
  simp only [opField, xField, yField, nField, BitVec.getLsbD_extractLsb']
  split_ifs <;> simp_all <;> omega

/-- A word is its two bytes. -/
@[simp] theorem wordOfBytes_hi_lo (w : Word) : wordOfBytes (hiByte w) (loByte w) = w := by
  apply BitVec.eq_of_getLsbD_eq
  intro k hk
  simp only [wordOfBytes, hiByte, loByte, BitVec.getLsbD_append, BitVec.getLsbD_extractLsb']
  by_cases h : k < 8
  · simp [h]
  · simp [h, show k - 8 < 8 by omega, show 8 + (k - 8) = k by omega]

end Sys2Proof
end

