-- ==== Sys2Proof/Laws/Memory.lean ====
section
/-! SUPPORT. The laws of memory: a read after a write, the canonical form and that every memory operation keeps it, and
that canonical memories with the same bytes are the same data. -/

namespace Sys2Proof.Machine

/-! ## Read after write -/

@[simp] theorem Memory.read_nil (a : Nat) : Memory.read [] a = background a := rfl

theorem Memory.read_cons (b : Nat) (v : Byte) (rest : Memory) (a : Nat) :
    Memory.read ((b, v) :: rest) a = if a = b then v else Memory.read rest a := rfl

/-- Erasing an address makes it read as the background and leaves every other one alone. -/
theorem Memory.read_erase (m : Memory) (a b : Nat) :
    Memory.read (Memory.erase m a) b = if b = a then background a else Memory.read m b := by
  induction m with
  | nil => by_cases h : b = a <;> simp [Memory.erase, h]
  | cons c rest ih =>
    obtain ⟨d, u⟩ := c
    unfold Memory.erase at ih ⊢
    by_cases hd : d = a
    · subst hd
      rw [List.filter_cons_of_neg (by simp), ih, Memory.read_cons]
      by_cases hb : b = d <;> simp [hb]
    · rw [List.filter_cons_of_pos (by simp [hd]), Memory.read_cons, ih, Memory.read_cons]
      by_cases hb : b = d
      · subst hb; simp [hd]
      · simp [hb]

/-- Inserting an entry for an address that is not listed makes it read as the value. -/
theorem Memory.read_insert (m : Memory) (a : Nat) (v : Byte) (b : Nat) (h : ∀ c ∈ m, c.1 ≠ a) :
    Memory.read (Memory.insert m a v) b = if b = a then v else Memory.read m b := by
  induction m with
  | nil => rfl
  | cons c rest ih =>
    obtain ⟨d, u⟩ := c
    have hd : d ≠ a := h (d, u) (by simp)
    unfold Memory.insert
    split
    · rfl
    · rw [Memory.read_cons, ih fun c hc => h c (by simp [hc]), Memory.read_cons]
      by_cases hb : b = d
      · subst hb; simp [hd]
      · simp [hb]

theorem Memory.not_mem_erase (m : Memory) (a : Nat) : ∀ c ∈ Memory.erase m a, c.1 ≠ a := by
  intro c hc
  simpa using (List.mem_filter.mp hc).2

/-- The law of a write (R63): its address reads as the byte written, every other address as before. -/
@[simp] theorem Memory.read_write (m : Memory) (a : Nat) (v : Byte) (b : Nat) :
    Memory.read (Memory.write m a v) b = if b = a then v else Memory.read m b := by
  unfold Memory.write
  split
  · rename_i h; rw [Memory.read_erase]; simp [h]
  · rw [Memory.read_insert _ _ _ _ (Memory.not_mem_erase m a), Memory.read_erase]
    by_cases hb : b = a <;> simp [hb]

/-! ## Canonical form -/

theorem Memory.wfFrom_cons (lo a : Nat) (v : Byte) (rest : Memory) :
    Memory.wfFrom lo ((a, v) :: rest) = true ↔
      lo ≤ a ∧ a < 0x1000 ∧ v ≠ background a ∧ Memory.wfFrom (a + 1) rest = true := by
  simp [Memory.wfFrom, and_assoc]

theorem Memory.wfFrom_mono {lo lo' : Nat} (h : lo' ≤ lo) {m : Memory} (hm : Memory.wfFrom lo m = true) :
    Memory.wfFrom lo' m = true := by
  cases m with
  | nil => rfl
  | cons c rest =>
    obtain ⟨a, v⟩ := c
    rw [Memory.wfFrom_cons] at hm ⊢
    exact ⟨by omega, hm.2⟩

theorem Memory.wfFrom_erase {lo : Nat} {m : Memory} (h : Memory.wfFrom lo m = true) (a : Nat) :
    Memory.wfFrom lo (Memory.erase m a) = true := by
  induction m generalizing lo with
  | nil => rfl
  | cons c rest ih =>
    obtain ⟨d, u⟩ := c
    rw [Memory.wfFrom_cons] at h
    unfold Memory.erase at ih ⊢
    by_cases hd : d = a
    · rw [List.filter_cons_of_neg (by simp [hd])]
      exact Memory.wfFrom_mono (by omega) (ih h.2.2.2)
    · rw [List.filter_cons_of_pos (by simp [hd]), Memory.wfFrom_cons]
      exact ⟨h.1, h.2.1, h.2.2.1, ih h.2.2.2⟩

theorem Memory.wfFrom_insert {lo : Nat} {m : Memory} (h : Memory.wfFrom lo m = true) {a : Nat} {v : Byte}
    (hm : ∀ c ∈ m, c.1 ≠ a) (hlo : lo ≤ a) (ha : a < 0x1000) (hv : v ≠ background a) :
    Memory.wfFrom lo (Memory.insert m a v) = true := by
  induction m generalizing lo with
  | nil => exact (Memory.wfFrom_cons _ _ _ _).mpr ⟨hlo, ha, hv, rfl⟩
  | cons c rest ih =>
    obtain ⟨d, u⟩ := c
    have hd : d ≠ a := hm (d, u) (by simp)
    have hc := (Memory.wfFrom_cons _ _ _ _).mp h
    unfold Memory.insert
    split
    · rw [Memory.wfFrom_cons, Memory.wfFrom_cons]
      exact ⟨hlo, ha, hv, by omega, hc.2⟩
    · rw [Memory.wfFrom_cons]
      exact ⟨hc.1, hc.2.1, hc.2.2.1, ih hc.2.2.2 (fun c hc => hm c (by simp [hc])) (by omega)⟩

/-- A write inside the address space keeps the canonical form. -/
theorem Memory.wf_write {m : Memory} (h : m.wf = true) {a : Nat} (ha : a < 0x1000) (v : Byte) :
    (m.write a v).wf = true := by
  unfold Memory.wf Memory.write at *
  split
  · exact Memory.wfFrom_erase h a
  · rename_i hv
    exact Memory.wfFrom_insert (Memory.wfFrom_erase h a) (Memory.not_mem_erase m a) (Nat.zero_le _) ha hv

/-- Below the bound of a canonical memory nothing is listed. -/
theorem Memory.read_of_lt {lo : Nat} {m : Memory} (h : Memory.wfFrom lo m = true) {a : Nat} (ha : a < lo) :
    Memory.read m a = background a := by
  induction m generalizing lo with
  | nil => rfl
  | cons c rest ih =>
    obtain ⟨b, v⟩ := c
    rw [Memory.wfFrom_cons] at h
    rw [Memory.read_cons, if_neg (by omega)]
    exact ih h.2.2.2 (by omega)

theorem Memory.eq_of_readFrom {lo : Nat} {m m' : Memory} (h : Memory.wfFrom lo m = true)
    (h' : Memory.wfFrom lo m' = true) (he : ∀ a, Memory.read m a = Memory.read m' a) : m = m' := by
  induction m generalizing lo m' with
  | nil =>
    cases m' with
    | nil => rfl
    | cons c rest =>
      obtain ⟨a, v⟩ := c
      rw [Memory.wfFrom_cons] at h'
      exact absurd (by simpa [Memory.read_cons] using (he a).symm) h'.2.2.1
  | cons c rest ih =>
    obtain ⟨a, v⟩ := c
    have hc := (Memory.wfFrom_cons _ _ _ _).mp h
    cases m' with
    | nil => exact absurd (by simpa [Memory.read_cons] using he a) hc.2.2.1
    | cons c' rest' =>
      obtain ⟨b, u⟩ := c'
      have hc' := (Memory.wfFrom_cons _ _ _ _).mp h'
      have hab : a = b := by
        rcases Nat.lt_trichotomy a b with hlt | heq | hgt
        · have hr := he a
          rw [Memory.read_cons, if_pos rfl, Memory.read_cons, if_neg (by omega),
            Memory.read_of_lt hc'.2.2.2 (by omega)] at hr
          exact absurd hr hc.2.2.1
        · exact heq
        · have hr := he b
          rw [Memory.read_cons, if_neg (by omega), Memory.read_of_lt hc.2.2.2 (by omega), Memory.read_cons,
            if_pos rfl] at hr
          exact absurd hr.symm hc'.2.2.1
      subst hab
      have hv : v = u := by simpa [Memory.read_cons] using he a
      subst hv
      have hrest : rest = rest' := by
        refine ih hc.2.2.2 hc'.2.2.2 fun x => ?_
        by_cases hx : x = a
        · rw [hx, Memory.read_of_lt hc.2.2.2 (Nat.lt_succ_self a), Memory.read_of_lt hc'.2.2.2 (Nat.lt_succ_self a)]
        · simpa [Memory.read_cons, hx] using he x
      rw [hrest]

/-- Two canonical memories that read the same at every address are the same data. -/
theorem Memory.eq_of_read {m m' : Memory} (h : m.wf = true) (h' : m'.wf = true)
    (he : ∀ a, m.read a = m'.read a) : m = m' := Memory.eq_of_readFrom h h' he

/-! ## Memory from contents -/

theorem Memory.ofFn_nil (f : Nat → Byte) : Memory.ofFn [] f = [] := rfl

theorem Memory.ofFn_cons (a : Nat) (addrs : List Nat) (f : Nat → Byte) :
    Memory.ofFn (a :: addrs) f =
      if f a = background a then Memory.ofFn addrs f else (a, f a) :: Memory.ofFn addrs f := by
  unfold Memory.ofFn
  by_cases h : f a = background a <;> simp [h]

/-- Memory from contents reads as them at the given addresses and as the background elsewhere. -/
theorem Memory.read_ofFn (addrs : List Nat) (f : Nat → Byte) (b : Nat) :
    Memory.read (Memory.ofFn addrs f) b = if b ∈ addrs then f b else background b := by
  induction addrs with
  | nil => rfl
  | cons a rest ih =>
    rw [Memory.ofFn_cons]
    split
    · rename_i h
      rw [ih]
      by_cases hb : b = a
      · subst hb; simp [h]
      · simp [hb]
    · rw [Memory.read_cons, ih]
      by_cases hb : b = a <;> simp [hb]

/-- Memory from contents is canonical when the addresses rise strictly inside the address space. -/
theorem Memory.wfFrom_ofFn {lo : Nat} {addrs : List Nat} (f : Nat → Byte) (h : addrs.Pairwise (· < ·))
    (hb : ∀ a ∈ addrs, lo ≤ a ∧ a < 0x1000) : Memory.wfFrom lo (Memory.ofFn addrs f) = true := by
  induction addrs generalizing lo with
  | nil => rfl
  | cons a rest ih =>
    have hp := List.pairwise_cons.mp h
    have ha := hb a (by simp)
    rw [Memory.ofFn_cons]
    have hr : Memory.wfFrom (a + 1) (Memory.ofFn rest f) = true :=
      ih hp.2 fun b hb' => ⟨hp.1 b hb', (hb b (by simp [hb'])).2⟩
    split
    · exact Memory.wfFrom_mono (by omega) hr
    · rename_i hv
      exact (Memory.wfFrom_cons _ _ _ _).mpr ⟨ha.1, ha.2, hv, hr⟩

theorem addressSpace_pairwise : addressSpace.Pairwise (· < ·) := by
  unfold addressSpace
  exact List.pairwise_lt_range

theorem mem_addressSpace (a : Nat) : a ∈ addressSpace ↔ a < 0x1000 := by
  unfold addressSpace
  exact List.mem_range

/-- Reset leaves the memory of its launch. -/
@[simp] theorem State.resetWith_mem (l : Launch) : (State.resetWith l).mem = l.memory := by
  simp only [State.resetWith]

/-- The memory that reset leaves is canonical, for every launch. -/
theorem Launch.memory_wf (l : Launch) : l.memory.wf = true :=
  Memory.wfFrom_ofFn _ addressSpace_pairwise fun a ha => ⟨Nat.zero_le _, (mem_addressSpace a).mp ha⟩

/-- A byte of the memory that reset leaves, at every address of the address space. -/
theorem Launch.memory_read (l : Launch) {a : Nat} (ha : a < 0x1000) : l.memory.read a = l.byteAt a := by
  unfold Launch.memory
  rw [Memory.read_ofFn, if_pos ((mem_addressSpace a).mpr ha)]

end Sys2Proof.Machine
end

