-- ==== Sys2Proof/Laws/State.lean ====
section
/-! SUPPORT. The small lemmas of the state updates: for each update and each field what it is afterwards, and the reads of
a register and of a key after each update. -/

namespace Sys2Proof.Machine

/-! ## setReg -/

@[simp] theorem State.setReg_v (s : State) (x : RegIdx) (b : Byte) : (s.setReg x b).v = s.v.set x.toNat b x.isLt := rfl
@[simp] theorem State.setReg_i (s : State) (x : RegIdx) (b : Byte) : (s.setReg x b).i = s.i := rfl
@[simp] theorem State.setReg_pc (s : State) (x : RegIdx) (b : Byte) : (s.setReg x b).pc = s.pc := rfl
@[simp] theorem State.setReg_stack (s : State) (x : RegIdx) (b : Byte) : (s.setReg x b).stack = s.stack := rfl
@[simp] theorem State.setReg_sp (s : State) (x : RegIdx) (b : Byte) : (s.setReg x b).sp = s.sp := rfl
@[simp] theorem State.setReg_mem (s : State) (x : RegIdx) (b : Byte) : (s.setReg x b).mem = s.mem := rfl
@[simp] theorem State.setReg_fb (s : State) (x : RegIdx) (b : Byte) : (s.setReg x b).fb = s.fb := rfl
@[simp] theorem State.setReg_delay (s : State) (x : RegIdx) (b : Byte) : (s.setReg x b).delay = s.delay := rfl
@[simp] theorem State.setReg_sound (s : State) (x : RegIdx) (b : Byte) : (s.setReg x b).sound = s.sound := rfl
@[simp] theorem State.setReg_key (s : State) (x : RegIdx) (b : Byte) : (s.setReg x b).key = s.key := rfl
@[simp] theorem State.setReg_waiting (s : State) (x : RegIdx) (b : Byte) : (s.setReg x b).waiting = s.waiting := rfl
@[simp] theorem State.setReg_waitReg (s : State) (x : RegIdx) (b : Byte) : (s.setReg x b).waitReg = s.waitReg := rfl
@[simp] theorem State.setReg_halt (s : State) (x : RegIdx) (b : Byte) : (s.setReg x b).halt = s.halt := rfl
@[simp] theorem State.setReg_params (s : State) (x : RegIdx) (b : Byte) : (s.setReg x b).params = s.params := rfl
@[simp] theorem State.setReg_draws (s : State) (x : RegIdx) (b : Byte) : (s.setReg x b).draws = s.draws := rfl
@[simp] theorem State.setReg_repaints (s : State) (x : RegIdx) (b : Byte) : (s.setReg x b).repaints = s.repaints := rfl
@[simp] theorem State.setReg_events (s : State) (x : RegIdx) (b : Byte) : (s.setReg x b).events = s.events := rfl
@[simp] theorem State.setReg_host (s : State) (x : RegIdx) (b : Byte) : (s.setReg x b).host = s.host := rfl
@[simp] theorem State.setReg_arrivals (s : State) (x : RegIdx) (b : Byte) : (s.setReg x b).arrivals = s.arrivals := rfl
@[simp] theorem State.setReg_keyDown (s : State) (x : RegIdx) (b : Byte) (j : KeyCode) : (s.setReg x b).keyDown j = s.keyDown j := rfl

/-! ## setI -/

@[simp] theorem State.setI_v (s : State) (a : Addr) : (s.setI a).v = s.v := rfl
@[simp] theorem State.setI_i (s : State) (a : Addr) : (s.setI a).i = a := rfl
@[simp] theorem State.setI_pc (s : State) (a : Addr) : (s.setI a).pc = s.pc := rfl
@[simp] theorem State.setI_stack (s : State) (a : Addr) : (s.setI a).stack = s.stack := rfl
@[simp] theorem State.setI_sp (s : State) (a : Addr) : (s.setI a).sp = s.sp := rfl
@[simp] theorem State.setI_mem (s : State) (a : Addr) : (s.setI a).mem = s.mem := rfl
@[simp] theorem State.setI_fb (s : State) (a : Addr) : (s.setI a).fb = s.fb := rfl
@[simp] theorem State.setI_delay (s : State) (a : Addr) : (s.setI a).delay = s.delay := rfl
@[simp] theorem State.setI_sound (s : State) (a : Addr) : (s.setI a).sound = s.sound := rfl
@[simp] theorem State.setI_key (s : State) (a : Addr) : (s.setI a).key = s.key := rfl
@[simp] theorem State.setI_waiting (s : State) (a : Addr) : (s.setI a).waiting = s.waiting := rfl
@[simp] theorem State.setI_waitReg (s : State) (a : Addr) : (s.setI a).waitReg = s.waitReg := rfl
@[simp] theorem State.setI_halt (s : State) (a : Addr) : (s.setI a).halt = s.halt := rfl
@[simp] theorem State.setI_params (s : State) (a : Addr) : (s.setI a).params = s.params := rfl
@[simp] theorem State.setI_draws (s : State) (a : Addr) : (s.setI a).draws = s.draws := rfl
@[simp] theorem State.setI_repaints (s : State) (a : Addr) : (s.setI a).repaints = s.repaints := rfl
@[simp] theorem State.setI_events (s : State) (a : Addr) : (s.setI a).events = s.events := rfl
@[simp] theorem State.setI_host (s : State) (a : Addr) : (s.setI a).host = s.host := rfl
@[simp] theorem State.setI_arrivals (s : State) (a : Addr) : (s.setI a).arrivals = s.arrivals := rfl
@[simp] theorem State.setI_reg (s : State) (a : Addr) (r : RegIdx) : (s.setI a).reg r = s.reg r := rfl
@[simp] theorem State.setI_keyDown (s : State) (a : Addr) (j : KeyCode) : (s.setI a).keyDown j = s.keyDown j := rfl

/-! ## countDraw -/

@[simp] theorem State.countDraw_v (s : State) : (s.countDraw).v = s.v := rfl
@[simp] theorem State.countDraw_i (s : State) : (s.countDraw).i = s.i := rfl
@[simp] theorem State.countDraw_pc (s : State) : (s.countDraw).pc = s.pc := rfl
@[simp] theorem State.countDraw_stack (s : State) : (s.countDraw).stack = s.stack := rfl
@[simp] theorem State.countDraw_sp (s : State) : (s.countDraw).sp = s.sp := rfl
@[simp] theorem State.countDraw_mem (s : State) : (s.countDraw).mem = s.mem := rfl
@[simp] theorem State.countDraw_fb (s : State) : (s.countDraw).fb = s.fb := rfl
@[simp] theorem State.countDraw_delay (s : State) : (s.countDraw).delay = s.delay := rfl
@[simp] theorem State.countDraw_sound (s : State) : (s.countDraw).sound = s.sound := rfl
@[simp] theorem State.countDraw_key (s : State) : (s.countDraw).key = s.key := rfl
@[simp] theorem State.countDraw_waiting (s : State) : (s.countDraw).waiting = s.waiting := rfl
@[simp] theorem State.countDraw_waitReg (s : State) : (s.countDraw).waitReg = s.waitReg := rfl
@[simp] theorem State.countDraw_halt (s : State) : (s.countDraw).halt = s.halt := rfl
@[simp] theorem State.countDraw_params (s : State) : (s.countDraw).params = s.params := rfl
@[simp] theorem State.countDraw_draws (s : State) : (s.countDraw).draws = s.draws + 1 := rfl
@[simp] theorem State.countDraw_repaints (s : State) : (s.countDraw).repaints = s.repaints := rfl
@[simp] theorem State.countDraw_events (s : State) : (s.countDraw).events = s.events := rfl
@[simp] theorem State.countDraw_host (s : State) : (s.countDraw).host = s.host := rfl
@[simp] theorem State.countDraw_arrivals (s : State) : (s.countDraw).arrivals = s.arrivals := rfl
@[simp] theorem State.countDraw_reg (s : State) (r : RegIdx) : (s.countDraw).reg r = s.reg r := rfl
@[simp] theorem State.countDraw_keyDown (s : State) (j : KeyCode) : (s.countDraw).keyDown j = s.keyDown j := rfl

/-! ## putPc -/

@[simp] theorem State.putPc_v (s : State) (a : Addr) : (s.putPc a).v = s.v := rfl
@[simp] theorem State.putPc_i (s : State) (a : Addr) : (s.putPc a).i = s.i := rfl
@[simp] theorem State.putPc_pc (s : State) (a : Addr) : (s.putPc a).pc = a := rfl
@[simp] theorem State.putPc_stack (s : State) (a : Addr) : (s.putPc a).stack = s.stack := rfl
@[simp] theorem State.putPc_sp (s : State) (a : Addr) : (s.putPc a).sp = s.sp := rfl
@[simp] theorem State.putPc_mem (s : State) (a : Addr) : (s.putPc a).mem = s.mem := rfl
@[simp] theorem State.putPc_fb (s : State) (a : Addr) : (s.putPc a).fb = s.fb := rfl
@[simp] theorem State.putPc_delay (s : State) (a : Addr) : (s.putPc a).delay = s.delay := rfl
@[simp] theorem State.putPc_sound (s : State) (a : Addr) : (s.putPc a).sound = s.sound := rfl
@[simp] theorem State.putPc_key (s : State) (a : Addr) : (s.putPc a).key = s.key := rfl
@[simp] theorem State.putPc_waiting (s : State) (a : Addr) : (s.putPc a).waiting = s.waiting := rfl
@[simp] theorem State.putPc_waitReg (s : State) (a : Addr) : (s.putPc a).waitReg = s.waitReg := rfl
@[simp] theorem State.putPc_halt (s : State) (a : Addr) : (s.putPc a).halt = s.halt := rfl
@[simp] theorem State.putPc_params (s : State) (a : Addr) : (s.putPc a).params = s.params := rfl
@[simp] theorem State.putPc_draws (s : State) (a : Addr) : (s.putPc a).draws = s.draws := rfl
@[simp] theorem State.putPc_repaints (s : State) (a : Addr) : (s.putPc a).repaints = s.repaints := rfl
@[simp] theorem State.putPc_events (s : State) (a : Addr) : (s.putPc a).events = s.events := rfl
@[simp] theorem State.putPc_host (s : State) (a : Addr) : (s.putPc a).host = s.host := rfl
@[simp] theorem State.putPc_arrivals (s : State) (a : Addr) : (s.putPc a).arrivals = s.arrivals := rfl
@[simp] theorem State.putPc_reg (s : State) (a : Addr) (r : RegIdx) : (s.putPc a).reg r = s.reg r := rfl
@[simp] theorem State.putPc_keyDown (s : State) (a : Addr) (j : KeyCode) : (s.putPc a).keyDown j = s.keyDown j := rfl

/-! ## takeFault -/

@[simp] theorem State.takeFault_v (s : State) (w : Option Word) (f : Fault) : (s.takeFault w f).v = s.v := rfl
@[simp] theorem State.takeFault_i (s : State) (w : Option Word) (f : Fault) : (s.takeFault w f).i = s.i := rfl
@[simp] theorem State.takeFault_pc (s : State) (w : Option Word) (f : Fault) : (s.takeFault w f).pc = s.pc := rfl
@[simp] theorem State.takeFault_stack (s : State) (w : Option Word) (f : Fault) : (s.takeFault w f).stack = s.stack := rfl
@[simp] theorem State.takeFault_sp (s : State) (w : Option Word) (f : Fault) : (s.takeFault w f).sp = s.sp := rfl
@[simp] theorem State.takeFault_mem (s : State) (w : Option Word) (f : Fault) : (s.takeFault w f).mem = s.mem := rfl
@[simp] theorem State.takeFault_fb (s : State) (w : Option Word) (f : Fault) : (s.takeFault w f).fb = s.fb := rfl
@[simp] theorem State.takeFault_delay (s : State) (w : Option Word) (f : Fault) : (s.takeFault w f).delay = s.delay := rfl
@[simp] theorem State.takeFault_sound (s : State) (w : Option Word) (f : Fault) : (s.takeFault w f).sound = s.sound := rfl
@[simp] theorem State.takeFault_key (s : State) (w : Option Word) (f : Fault) : (s.takeFault w f).key = s.key := rfl
@[simp] theorem State.takeFault_waiting (s : State) (w : Option Word) (f : Fault) : (s.takeFault w f).waiting = s.waiting := rfl
@[simp] theorem State.takeFault_waitReg (s : State) (w : Option Word) (f : Fault) : (s.takeFault w f).waitReg = s.waitReg := rfl
@[simp] theorem State.takeFault_halt (s : State) (w : Option Word) (f : Fault) : (s.takeFault w f).halt = some (faultRecord s w f) := rfl
@[simp] theorem State.takeFault_params (s : State) (w : Option Word) (f : Fault) : (s.takeFault w f).params = s.params := rfl
@[simp] theorem State.takeFault_draws (s : State) (w : Option Word) (f : Fault) : (s.takeFault w f).draws = s.draws := rfl
@[simp] theorem State.takeFault_repaints (s : State) (w : Option Word) (f : Fault) : (s.takeFault w f).repaints = s.repaints := rfl
@[simp] theorem State.takeFault_events (s : State) (w : Option Word) (f : Fault) : (s.takeFault w f).events = s.events := rfl
@[simp] theorem State.takeFault_host (s : State) (w : Option Word) (f : Fault) : (s.takeFault w f).host = s.host := rfl
@[simp] theorem State.takeFault_arrivals (s : State) (w : Option Word) (f : Fault) : (s.takeFault w f).arrivals = s.arrivals := rfl
@[simp] theorem State.takeFault_reg (s : State) (w : Option Word) (f : Fault) (r : RegIdx) : (s.takeFault w f).reg r = s.reg r := rfl
@[simp] theorem State.takeFault_keyDown (s : State) (w : Option Word) (f : Fault) (j : KeyCode) : (s.takeFault w f).keyDown j = s.keyDown j := rfl

/-! ## setKey -/

@[simp] theorem State.setKey_v (s : State) (k : KeyCode) (b : Bool) : (s.setKey k b).v = s.v := rfl
@[simp] theorem State.setKey_i (s : State) (k : KeyCode) (b : Bool) : (s.setKey k b).i = s.i := rfl
@[simp] theorem State.setKey_pc (s : State) (k : KeyCode) (b : Bool) : (s.setKey k b).pc = s.pc := rfl
@[simp] theorem State.setKey_stack (s : State) (k : KeyCode) (b : Bool) : (s.setKey k b).stack = s.stack := rfl
@[simp] theorem State.setKey_sp (s : State) (k : KeyCode) (b : Bool) : (s.setKey k b).sp = s.sp := rfl
@[simp] theorem State.setKey_mem (s : State) (k : KeyCode) (b : Bool) : (s.setKey k b).mem = s.mem := rfl
@[simp] theorem State.setKey_fb (s : State) (k : KeyCode) (b : Bool) : (s.setKey k b).fb = s.fb := rfl
@[simp] theorem State.setKey_delay (s : State) (k : KeyCode) (b : Bool) : (s.setKey k b).delay = s.delay := rfl
@[simp] theorem State.setKey_sound (s : State) (k : KeyCode) (b : Bool) : (s.setKey k b).sound = s.sound := rfl
@[simp] theorem State.setKey_key (s : State) (k : KeyCode) (b : Bool) : (s.setKey k b).key = s.key.set k.toNat b k.isLt := rfl
@[simp] theorem State.setKey_waiting (s : State) (k : KeyCode) (b : Bool) : (s.setKey k b).waiting = s.waiting := rfl
@[simp] theorem State.setKey_waitReg (s : State) (k : KeyCode) (b : Bool) : (s.setKey k b).waitReg = s.waitReg := rfl
@[simp] theorem State.setKey_halt (s : State) (k : KeyCode) (b : Bool) : (s.setKey k b).halt = s.halt := rfl
@[simp] theorem State.setKey_params (s : State) (k : KeyCode) (b : Bool) : (s.setKey k b).params = s.params := rfl
@[simp] theorem State.setKey_draws (s : State) (k : KeyCode) (b : Bool) : (s.setKey k b).draws = s.draws := rfl
@[simp] theorem State.setKey_repaints (s : State) (k : KeyCode) (b : Bool) : (s.setKey k b).repaints = s.repaints := rfl
@[simp] theorem State.setKey_events (s : State) (k : KeyCode) (b : Bool) : (s.setKey k b).events = s.events := rfl
@[simp] theorem State.setKey_host (s : State) (k : KeyCode) (b : Bool) : (s.setKey k b).host = s.host := rfl
@[simp] theorem State.setKey_arrivals (s : State) (k : KeyCode) (b : Bool) : (s.setKey k b).arrivals = s.arrivals := rfl
@[simp] theorem State.setKey_reg (s : State) (k : KeyCode) (b : Bool) (r : RegIdx) : (s.setKey k b).reg r = s.reg r := rfl

/-! ## takeEvent -/

@[simp] theorem State.takeEvent_v (s : State) : (s.takeEvent).v = s.v := rfl
@[simp] theorem State.takeEvent_i (s : State) : (s.takeEvent).i = s.i := rfl
@[simp] theorem State.takeEvent_pc (s : State) : (s.takeEvent).pc = s.pc := rfl
@[simp] theorem State.takeEvent_stack (s : State) : (s.takeEvent).stack = s.stack := rfl
@[simp] theorem State.takeEvent_sp (s : State) : (s.takeEvent).sp = s.sp := rfl
@[simp] theorem State.takeEvent_mem (s : State) : (s.takeEvent).mem = s.mem := rfl
@[simp] theorem State.takeEvent_fb (s : State) : (s.takeEvent).fb = s.fb := rfl
@[simp] theorem State.takeEvent_delay (s : State) : (s.takeEvent).delay = s.delay := rfl
@[simp] theorem State.takeEvent_sound (s : State) : (s.takeEvent).sound = s.sound := rfl
@[simp] theorem State.takeEvent_key (s : State) : (s.takeEvent).key = s.key := rfl
@[simp] theorem State.takeEvent_waiting (s : State) : (s.takeEvent).waiting = s.waiting := rfl
@[simp] theorem State.takeEvent_waitReg (s : State) : (s.takeEvent).waitReg = s.waitReg := rfl
@[simp] theorem State.takeEvent_halt (s : State) : (s.takeEvent).halt = s.halt := rfl
@[simp] theorem State.takeEvent_params (s : State) : (s.takeEvent).params = s.params := rfl
@[simp] theorem State.takeEvent_draws (s : State) : (s.takeEvent).draws = s.draws := rfl
@[simp] theorem State.takeEvent_repaints (s : State) : (s.takeEvent).repaints = s.repaints := rfl
@[simp] theorem State.takeEvent_events (s : State) : (s.takeEvent).events = s.eventsLeft := rfl
@[simp] theorem State.takeEvent_host (s : State) : (s.takeEvent).host = s.host := rfl
@[simp] theorem State.takeEvent_arrivals (s : State) : (s.takeEvent).arrivals = s.arrivalsAfter := rfl
@[simp] theorem State.takeEvent_reg (s : State) (r : RegIdx) : (s.takeEvent).reg r = s.reg r := rfl
@[simp] theorem State.takeEvent_keyDown (s : State) (j : KeyCode) : (s.takeEvent).keyDown j = s.keyDown j := rfl

/-! ## Registers and keys -/

/-- A register after a write: the value written, or the old one. -/
@[simp] theorem State.setReg_reg (s : State) (x : RegIdx) (b : Byte) (r : RegIdx) :
    (s.setReg x b).reg r = if r = x then b else s.reg r := by
  unfold State.setReg State.reg
  by_cases h : r = x
  · subst h; simp
  · have : x.toNat ≠ r.toNat := fun e => h (BitVec.eq_of_toNat_eq e).symm
    simp [h, Vector.getElem_set_ne, this]

/-- A key after a key event. -/
@[simp] theorem State.setKey_keyDown (s : State) (k : KeyCode) (b : Bool) (j : KeyCode) :
    (s.setKey k b).keyDown j = if j = k then b else s.keyDown j := by
  unfold State.setKey State.keyDown
  by_cases h : j = k
  · subst h; simp
  · have : k.toNat ≠ j.toNat := fun e => h (BitVec.eq_of_toNat_eq e).symm
    simp [h, Vector.getElem_set_ne, this]

/-- Two states with the same registers, read one by one, have the same register file. -/
theorem State.v_eq_of_reg_eq {s t : State} (h : ∀ r, t.reg r = s.reg r) : t.v = s.v := by
  apply Vector.ext
  intro k hk
  have := h (BitVec.ofNat 4 k)
  simpa [State.reg, BitVec.toNat_ofNat, Nat.mod_eq_of_lt hk] using this

/-- Writing a register with the value it holds changes nothing. -/
theorem State.setReg_self (s : State) (x : RegIdx) : s.setReg x (s.reg x) = s := by
  have h : (s.setReg x (s.reg x)).v = s.v := State.v_eq_of_reg_eq (by intro r; by_cases h : r = x <;> simp [h])
  cases s
  simpa [State.setReg] using h

end Sys2Proof.Machine
end

