-- ==== Sys2Proof/Laws/Ops.lean ====
section
/-! SUPPORT. One lemma per shared operation that says everything it can do: PC, stack, range checks, byte loops, fetch,
and the completion of an instruction. -/

namespace Sys2Proof.Machine

/-! ## PC (R120) -/

theorem setPC_fits (s : State) {t : Nat} (h : t ≤ 0xFFF) : setPC s t = .ok (s.putPc (BitVec.ofNat 12 t)) := by
  simp [setPC, Nat.not_lt.mpr h]

theorem setPC_overflows (s : State) {t : Nat} (h : t > 0xFFF) : setPC s t = .error (.pcOutOfRange t) := by
  simp [setPC, h]

/-- A 12-bit target is always in range. -/
@[simp] theorem setPC_addr (s : State) (a : Addr) : setPC s a.toNat = .ok (s.putPc a) := by
  rw [setPC_fits s (by have := a.isLt; omega)]
  simp

theorem setPC_ok_iff (s t : State) (n : Nat) :
    setPC s n = .ok t ↔ n ≤ 0xFFF ∧ t = s.putPc (BitVec.ofNat 12 n) := by
  unfold setPC
  split <;> simp <;> grind

theorem setPC_error_iff (s : State) (n : Nat) (f : Fault) :
    setPC s n = .error f ↔ n > 0xFFF ∧ f = .pcOutOfRange n := by
  unfold setPC
  split <;> simp <;> grind

theorem advance_fits (s : State) {k : Nat} (h : s.pc.toNat + k ≤ 0xFFF) :
    advance s k = .ok (s.putPc (BitVec.ofNat 12 (s.pc.toNat + k))) := setPC_fits s h

theorem advance_overflows (s : State) {k : Nat} (h : s.pc.toNat + k > 0xFFF) :
    advance s k = .error (.pcOutOfRange (s.pc.toNat + k)) := setPC_overflows s h

theorem advance_ok_iff (s t : State) (k : Nat) :
    advance s k = .ok t ↔ s.pc.toNat + k ≤ 0xFFF ∧ t = s.putPc (BitVec.ofNat 12 (s.pc.toNat + k)) :=
  setPC_ok_iff s t _

theorem advance_error_iff (s : State) (k : Nat) (f : Fault) :
    advance s k = .error f ↔ s.pc.toNat + k > 0xFFF ∧ f = .pcOutOfRange (s.pc.toNat + k) :=
  setPC_error_iff s _ f

/-- The new PC as a number. -/
theorem toNat_ofNat_pc {n : Nat} (h : n ≤ 0xFFF) : (BitVec.ofNat 12 n).toNat = n := by
  rw [BitVec.toNat_ofNat]; exact Nat.mod_eq_of_lt (by omega)

/-- A conditional skip is one Advance, by 4 or by 2 (R121). -/
theorem skipIf_eq (s : State) (c : Bool) : skipIf s c = advance s (if c = true then 4 else 2) := by
  cases c <;> rfl

/-! ## Call stack (R28) -/

theorem push_room (s : State) (r : Addr) (h : s.sp.val < 16) :
    push s r = .ok { s with stack := s.stack.set s.sp.val r h, sp := ⟨s.sp.val + 1, by omega⟩ } := by
  simp [push, h]

theorem push_full (s : State) (r : Addr) (h : ¬ s.sp.val < 16) : push s r = .error .stackOverflow := by
  simp [push, h]

theorem pop_empty (s : State) (h : s.sp.val = 0) : pop s = .error .stackUnderflow := by
  simp [pop, h]

theorem pop_entry (s : State) (h : s.sp.val ≠ 0) :
    pop s = .ok (s.stack[s.sp.val - 1], { s with sp := ⟨s.sp.val - 1, by omega⟩ }) := by
  simp [pop, h]

/-! ## Memory (R62 to R64) -/

theorem memRead_inside (s : State) {a : Nat} (h : a ≤ 0xFFF) : memRead s a = .ok (s.mem.read a) := by
  simp [memRead, Nat.not_lt.mpr h]

theorem memRead_outside (s : State) {a : Nat} (h : a > 0xFFF) : memRead s a = .error (.memOutOfRange a) := by
  simp [memRead, h]

theorem checkRange_inside (s : State) {base last : Nat} (h : last ≤ 0xFFF) : checkRange s base last = .ok () := by
  simp [checkRange, Nat.not_lt.mpr h]

theorem checkRange_outside (s : State) {base last : Nat} (h : last > 0xFFF) :
    checkRange s base last = .error (.memOutOfRange (outOfRangeAddr s.params base last)) := by
  simp [checkRange, h]

/-- The recorded address, for an access that starts at I (log 12). -/
theorem outOfRangeAddr_eq (p : Params) (i : Addr) (last : Nat) :
    outOfRangeAddr p i.toNat last = if p.memFaultInfo = .firstAbove then 0x1000 else last := by
  have := i.isLt
  unfold outOfRangeAddr
  cases p.memFaultInfo <;> simp
  omega

theorem writeBytes_zero (m : Memory) (base : Nat) (f : Nat → Byte) : writeBytes m base f 0 = m := rfl

theorem writeBytes_succ (m : Memory) (base : Nat) (f : Nat → Byte) (n : Nat) :
    writeBytes m base f (n + 1) = (writeBytes m base f n).write (base + n) (f n) := by
  simp [writeBytes, List.range_succ]

/-- The bytes of a loop of writes: those written, and every other one as before. -/
theorem read_writeBytes (m : Memory) (base : Nat) (f : Nat → Byte) (n a : Nat) :
    Memory.read (writeBytes m base f n) a =
      if base ≤ a ∧ a < base + n then f (a - base) else Memory.read m a := by
  induction n with
  | zero => rw [writeBytes_zero, if_neg (by omega)]
  | succ n ih =>
    rw [writeBytes_succ, Memory.read_write, ih]
    by_cases h : a = base + n
    · subst h; simp
    · have : (base ≤ a ∧ a < base + (n + 1)) ↔ (base ≤ a ∧ a < base + n) := by omega
      simp [h, this]

/-- A loop of writes inside the address space keeps the canonical form. -/
theorem writeBytes_wf {m : Memory} (h : m.wf = true) (base : Nat) (f : Nat → Byte) (n : Nat)
    (hn : base + n ≤ 0x1000) : (writeBytes m base f n).wf = true := by
  induction n with
  | zero => exact h
  | succ n ih => rw [writeBytes_succ]; exact Memory.wf_write (ih (by omega)) (by omega) _

/-! ## Register loops (R195) -/

theorem setRegs_zero (s : State) (f : Nat → Byte) : s.setRegs f 0 = s := rfl

theorem setRegs_succ (s : State) (f : Nat → Byte) (n : Nat) :
    s.setRegs f (n + 1) = (s.setRegs f n).setReg (BitVec.ofNat 4 n) (f n) := by
  simp [State.setRegs, List.range_succ]

/-- A loop of register writes changes the register file alone. -/
theorem setRegs_eq (s : State) (f : Nat → Byte) (n : Nat) : s.setRegs f n = { s with v := (s.setRegs f n).v } := by
  induction n with
  | zero => rfl
  | succ n ih => rw [setRegs_succ, ih]; rfl

/-- The registers of a loop of register writes. -/
theorem setRegs_reg (s : State) (f : Nat → Byte) (n : Nat) (hn : n ≤ 16) (r : RegIdx) :
    (s.setRegs f n).reg r = if r.toNat < n then f r.toNat else s.reg r := by
  induction n with
  | zero => simp [setRegs_zero]
  | succ n ih =>
    rw [setRegs_succ, State.setReg_reg, ih (by omega)]
    have hr : r = BitVec.ofNat 4 n ↔ r.toNat = n := by
      constructor
      · rintro rfl; rw [BitVec.toNat_ofNat]; exact Nat.mod_eq_of_lt (by omega)
      · intro h; apply BitVec.eq_of_toNat_eq; rw [BitVec.toNat_ofNat, h]; exact (Nat.mod_eq_of_lt (by omega)).symm
    by_cases h : r.toNat = n
    · rw [if_pos (hr.mpr h), if_pos (by omega), h]
    · rw [if_neg (fun e => h (hr.mp e))]
      have : (r.toNat < n + 1) ↔ (r.toNat < n) := by omega
      simp [this]

/-! ## Fetch (R90) -/

theorem fetch_odd (s : State) (h : s.pc.toNat % 2 = 1) (hp : s.params.allowOddPc = false) :
    fetch s = .error (.misalignedFetch s.pc) := by
  simp [fetch, h, hp]

/-- A fetch at a PC that can be fetched from reads two bytes, big-endian. -/
theorem fetch_ok (s : State) (h : s.pc.toNat % 2 = 0 ∨ (s.params.allowOddPc = true ∧ s.pc.toNat < 0xFFF)) :
    fetch s = .ok (wordOfBytes (s.mem.read s.pc.toNat) (s.mem.read (s.pc.toNat + 1))) := by
  have hlt := s.pc.isLt
  have h1 : ¬ (s.pc.toNat % 2 = 1 ∧ s.params.allowOddPc = false) := by
    rintro ⟨ho, hp⟩
    rcases h with h | ⟨h, -⟩
    · omega
    · rw [hp] at h; cases h
  have h2 : s.pc.toNat + 1 ≤ 0xFFF := by rcases h with h | ⟨-, h⟩ <;> omega
  simp only [fetch, if_neg h1, memRead_inside s (show s.pc.toNat ≤ 0xFFF by omega), memRead_inside s h2]

theorem fetch_top (s : State) (h : s.pc = 0xFFF#12) (hp : s.params.allowOddPc = true) :
    fetch s = .error (.memOutOfRange 0x1000) := by
  simp [fetch, h, hp, memRead]

/-- What a fetch can answer: the word at PC, or one of two faults. -/
theorem fetch_cases (s : State) :
    fetch s = .ok (wordOfBytes (s.mem.read s.pc.toNat) (s.mem.read (s.pc.toNat + 1))) ∨
      fetch s = .error (.misalignedFetch s.pc) ∨ fetch s = .error (.memOutOfRange 0x1000) := by
  have hlt := s.pc.isLt
  by_cases ho : s.pc.toNat % 2 = 0
  · exact .inl (fetch_ok s (.inl ho))
  · cases hp : s.params.allowOddPc with
    | false => exact .inr (.inl (fetch_odd s (by omega) hp))
    | true =>
      by_cases ht : s.pc.toNat < 0xFFF
      · exact .inl (fetch_ok s (.inr ⟨hp, ht⟩))
      · exact .inr (.inr (fetch_top s (BitVec.eq_of_toNat_eq (by simp; omega)) hp))

/-! ## Completion (R12, R102, R262) -/

@[simp] theorem complete_ok (s : State) (i : Instr) (t : State) : complete s i (.ok t) = .next t := rfl

@[simp] theorem complete_error (s : State) (i : Instr) (f : Fault) :
    complete s i (.error f) = .next (s.takeFault (some (encode i)) f) := rfl

/-- An instruction answers its working copy, or the state before it with a fault taken. -/
theorem complete_next_iff (s : State) (i : Instr) (r : Except Fault State) (t : State) :
    complete s i r = .next t ↔ r = .ok t ∨ ∃ f, r = .error f ∧ t = s.takeFault (some (encode i)) f := by
  cases r <;> simp [eq_comm]

theorem complete_answers (s : State) (i : Instr) (r : Except Fault State) : ∃ t, complete s i r = .next t := by
  cases r <;> exact ⟨_, rfl⟩

/-! ## The linear view (R220) -/

/-- Element y * 64 + x of the linear view is the cell at column x and row y. -/
theorem Fb.element_cell (fb : Fb) (x : Fin 64) (y : Fin 32) :
    Fb.element fb ⟨y.val * 64 + x.val, by omega⟩ = Fb.cell fb x y := by
  have h1 : (y.val * 64 + x.val) % 64 = x.val := by omega
  have h2 : (y.val * 64 + x.val) / 64 = y.val := by omega
  simp only [Fb.element, h1, h2]

end Sys2Proof.Machine
end

