-- ==== Sys2Proof/Laws/Flags.lean ====
section
/-! SUPPORT. The results and flags of the arithmetic as numbers, and what the two writes of an arithmetic or shift
instruction can do. -/

namespace Sys2Proof.Machine

theorem addResult_toNat (a b : Byte) : (addResult a b).toNat = (a.toNat + b.toNat) % 256 := by
  simp [addResult]

theorem subResult_toNat (a b : Byte) : (subResult a b).toNat = (a.toNat + 256 - b.toNat) % 256 := by
  have ha := a.isLt
  have hb := b.isLt
  simp only [subResult, BitVec.toNat_ofInt]
  omega

theorem shrResult_toNat (op : Byte) : (shrResult op).toNat = op.toNat / 2 := by
  simp [shrResult, Nat.shiftRight_eq_div_pow]

theorem shrFlag_toNat (op : Byte) : (shrFlag op).toNat = op.toNat % 2 := by
  simp [shrFlag, Nat.and_one_is_mod]

theorem shlResult_toNat (op : Byte) : (shlResult op).toNat = op.toNat * 2 % 256 := by
  simp [shlResult, Nat.shiftLeft_eq]

theorem shlFlag_toNat (op : Byte) : (shlFlag op).toNat = op.toNat / 128 := by
  revert op; decide

theorem putFlag_none (s : State) : putFlag s none = s := rfl

theorem putFlag_some (s : State) (b : Byte) : putFlag s (some b) = s.setReg regF b := rfl

/-- A flag write changes the register file alone. -/
theorem putFlag_eq (s : State) (flag : Option Byte) : putFlag s flag = { s with v := (putFlag s flag).v } := by
  cases flag <;> rfl

theorem putFlag_reg (s : State) (flag : Option Byte) (r : RegIdx) :
    (putFlag s flag).reg r = if r = regF then flag.getD (s.reg regF) else s.reg r := by
  cases flag with
  | none => by_cases h : r = regF <;> simp [putFlag_none, h]
  | some b => simp [putFlag_some]

theorem orderedWrites_eq (s : State) (x : RegIdx) (r : Byte) (flag : Option Byte) (d : Bool) :
    orderedWrites s x r flag d = { s with v := (orderedWrites s x r flag d).v } := by
  cases d <;> cases flag <;> rfl

/-- The registers after both writes, for a destination other than VF. -/
theorem orderedWrites_reg_ne (s : State) {x : RegIdx} (hx : x ≠ regF) (r : Byte) (flag : Option Byte) (d : Bool)
    (q : RegIdx) : (orderedWrites s x r flag d).reg q =
      if q = x then r else if q = regF then flag.getD (s.reg regF) else s.reg q := by
  cases d <;> unfold orderedWrites <;> simp only [if_true, Bool.false_eq_true, if_false, State.setReg_reg, putFlag_reg]
  by_cases h : q = x
  · subst h; simp [hx]
  · by_cases hq : q = regF <;> simp [h, hq, Ne.symm hx]

/-- The registers after both writes, for destination VF: the last write wins. -/
theorem orderedWrites_reg_F (s : State) (r : Byte) (flag : Option Byte) (d : Bool) (q : RegIdx) :
    (orderedWrites s regF r flag d).reg q = if q = regF then lastVf r flag d else s.reg q := by
  cases d <;> unfold orderedWrites lastVf <;>
    simp only [if_true, Bool.false_eq_true, if_false, State.setReg_reg, putFlag_reg] <;>
    by_cases h : q = regF <;> simp [h]

/-- Both writes change the register file and, in the Draw case of R164 alone, count one free input. -/
theorem writeResult_cases (s : State) (x : RegIdx) (r : Byte) (flag : Option Byte) (d : Bool) :
    (¬ (x = regF ∧ s.params.vfOrder = .draw) ∧ writeResult s x r flag d = orderedWrites s x r flag d) ∨
      (x = regF ∧ s.params.vfOrder = .draw ∧
        ∃ b, (b = lastVf r flag true ∨ b = lastVf r flag false) ∧ writeResult s x r flag d = (s.setReg x b).countDraw) := by
  unfold writeResult
  by_cases h : x = regF ∧ s.params.vfOrder = .draw
  · right
    refine ⟨h.1, h.2, _, ?_, if_pos h⟩
    cases Config.vfSwap s.draws <;> cases d <;> simp
  · exact .inl ⟨h, if_neg h⟩

/-- The components that both writes leave alone. -/
theorem writeResult_eq (s : State) (x : RegIdx) (r : Byte) (flag : Option Byte) (d : Bool) :
    writeResult s x r flag d =
      { s with v := (writeResult s x r flag d).v, draws := (writeResult s x r flag d).draws } := by
  rcases writeResult_cases s x r flag d with ⟨-, h⟩ | ⟨-, -, b, -, h⟩
  · rw [h, orderedWrites_eq]
  · rw [h]; rfl

@[simp] theorem writeResult_pc (s : State) (x : RegIdx) (r : Byte) (flag : Option Byte) (d : Bool) :
    (writeResult s x r flag d).pc = s.pc := by rw [writeResult_eq]

theorem writeResult_table (s : State) {x : RegIdx} (h : x ≠ regF ∨ s.params.vfOrder = .table) (r : Byte)
    (flag : Option Byte) (d : Bool) : writeResult s x r flag d = orderedWrites s x r flag d := by
  rcases writeResult_cases s x r flag d with ⟨-, h'⟩ | ⟨hx, hd, -⟩
  · exact h'
  · rcases h with h | h
    · exact absurd hx h
    · rw [hd] at h; cases h

/-! ## Operands -/

theorem glyphAddr_toNat (b : Byte) : (glyphAddr b).toNat = b.toNat % 16 * 5 := by
  unfold glyphAddr
  rw [BitVec.toNat_ofNat]
  omega

theorem keyByte_toNat (k : KeyCode) : (keyByte k).toNat = k.toNat := by
  have := k.isLt
  simp [keyByte]
  omega

theorem lowNibble_toNat (b : Byte) : (lowNibble b).toNat = b.toNat % 16 := by
  simp [lowNibble]

theorem keyLookup_code (s : State) {k : Byte} (h : k.toNat ≤ 0xF) : keyLookup s k = .ok (s.keyDown (lowNibble k)) := by
  simp [keyLookup, h]

theorem keyLookup_above_fault (s : State) {k : Byte} (h : k.toNat > 0xF) (hp : s.params.keyIndex = .fault) :
    keyLookup s k = .error (.keyIndexOutOfRange k) := by
  simp [keyLookup, Nat.not_le.mpr h, hp]

theorem keyLookup_above_mod16 (s : State) {k : Byte} (h : k.toNat > 0xF) (hp : s.params.keyIndex = .mod16) :
    keyLookup s k = .ok (s.keyDown (lowNibble k)) := by
  simp [keyLookup, Nat.not_le.mpr h, hp]

theorem keyLookup_above_notPressed (s : State) {k : Byte} (h : k.toNat > 0xF) (hp : s.params.keyIndex = .notPressed) :
    keyLookup s k = .ok false := by
  simp [keyLookup, Nat.not_le.mpr h, hp]

theorem bulkNextI_toNat (s : State) (x : RegIdx) : (bulkNextI s x).toNat = (s.i.toNat + x.toNat + 1) % 4096 := by
  simp [bulkNextI]

/-- The post-modification changes I alone. -/
theorem bulkPostI_eq (s : State) (x : RegIdx) :
    bulkPostI s x = { s with i := if s.params.compat = true then s.i else bulkNextI s x } := by
  unfold bulkPostI
  split <;> simp [State.setI]

theorem decimalDigit_toNat (b : Byte) :
    (decimalDigit b 0).toNat = b.toNat / 100 ∧ (decimalDigit b 1).toNat = b.toNat / 10 % 10 ∧
      (decimalDigit b 2).toNat = b.toNat % 10 := by
  have := b.isLt
  refine ⟨?_, ?_, ?_⟩ <;> simp only [decimalDigit, BitVec.toNat_ofNat] <;> omega

end Sys2Proof.Machine
end

