-- ==== Sys2Proof/Laws/Display.lean ====
section
/-! SUPPORT. The laws of the framebuffer and of the sprite blitter, cell by cell. -/

namespace Sys2Proof.Machine

@[simp] theorem Fb.clear_cell (x : Fin 64) (y : Fin 32) : Fb.cell Fb.clear x y = false := by
  simp [Fb.cell, Fb.clear]

/-- A flip toggles its cell and no other. -/
theorem Fb.flip_cell (fb : Fb) (x : Fin 64) (y : Fin 32) (c : Fin 64) (r : Fin 32) :
    Fb.cell (Fb.flip fb x y) c r = (Fb.cell fb c r != (decide (c = x) && decide (r = y))) := by
  unfold Fb.cell Fb.flip
  by_cases hr : r = y
  · subst hr
    have hc := c.isLt
    by_cases h : c = x
    · subst h; simp
    · have hne : c.val ≠ x.val := fun e => h (Fin.ext e)
      have hb : (1#64 <<< x.val).getLsbD c.val = false := by
        simp only [BitVec.getLsbD_shiftLeft, BitVec.getLsbD_one]
        by_cases hlt : c.val < x.val
        · simp [hlt]
        · simp [show c.val - x.val ≠ 0 by omega]
      simp only [Vector.getElem_set_self, BitVec.getLsbD_xor, hb, h]
      simp
  · have hne : y.val ≠ r.val := fun e => hr (Fin.ext e).symm
    simp [hr, Vector.getElem_set_ne, hne]

/-- Two framebuffers with the same cells are the same. -/
theorem Fb.ext_cell {f g : Fb} (h : ∀ c r, Fb.cell f c r = Fb.cell g c r) : f = g := by
  apply Vector.ext
  intro k hk
  apply BitVec.eq_of_getLsbD_eq
  intro j hj
  exact h ⟨j, hj⟩ ⟨k, hk⟩

/-- The offset of column `c` from a sprite's left edge at coordinate `x`, mod 64. -/
def colOffset (x : Byte) (c : Fin 64) : Nat := (c.val + 64 - x.toNat % 64) % 64

/-- The offset of row `r` from a sprite's top edge at coordinate `y`, mod 32. -/
def rowOffset (y : Byte) (r : Fin 32) : Nat := (r.val + 32 - y.toNat % 32) % 32

theorem pixelCol_eq_iff (x : Byte) (b : Nat) (hb : b < 64) (c : Fin 64) : c = pixelCol x b ↔ colOffset x c = b := by
  have := c.isLt
  simp only [pixelCol, colOffset, Fin.ext_iff, Fin.ofNat]
  omega

theorem pixelRow_eq_iff (y : Byte) (r : Nat) (hr : r < 32) (q : Fin 32) : q = pixelRow y r ↔ rowOffset y q = r := by
  have := q.isLt
  simp only [pixelRow, rowOffset, Fin.ext_iff, Fin.ofNat]
  omega

theorem drawPixel_cell (acc : Fb × Bool) (cx : Fin 64) (cy : Fin 32) (p : Bool) (c : Fin 64) (r : Fin 32) :
    Fb.cell (drawPixel acc cx cy p).1 c r = (Fb.cell acc.1 c r != (decide (c = cx) && decide (r = cy) && p)) := by
  cases p <;> simp [drawPixel, Fb.flip_cell]

theorem drawPixel_collision (acc : Fb × Bool) (cx : Fin 64) (cy : Fin 32) (p : Bool) :
    (drawPixel acc cx cy p).2 = (acc.2 || (p && Fb.cell acc.1 cx cy)) := by
  cases p <;> simp [drawPixel]

/-- The first `n` pixels of a row: cells and collision. -/
theorem drawRow_first (acc : Fb × Bool) (x : Byte) (cy : Fin 32) (row : Byte) (n : Nat) (hn : n ≤ 8) :
    let d := (List.range n).foldl (fun acc b => drawPixel acc (pixelCol x b) cy (spriteBit row b)) acc
    (∀ c r, Fb.cell d.1 c r = (Fb.cell acc.1 c r !=
      (decide (r = cy) && decide (colOffset x c < n) && spriteBit row (colOffset x c)))) ∧
    (d.2 = true ↔ acc.2 = true ∨
      ∃ c, colOffset x c < n ∧ spriteBit row (colOffset x c) = true ∧ Fb.cell acc.1 c cy = true) := by
  induction n with
  | zero => simp
  | succ n ih =>
    obtain ⟨ihc, ihv⟩ := ih (by omega)
    simp only [List.range_succ, List.foldl_append, List.foldl_cons, List.foldl_nil]
    refine ⟨fun c r => ?_, ?_⟩
    · rw [drawPixel_cell, ihc]
      have hiff := pixelCol_eq_iff x n (by omega) c
      by_cases h : colOffset x c = n
      · rw [h]; simp [hiff.mpr h]
      · have hne : ¬ c = pixelCol x n := fun e => h (hiff.mp e)
        have : (colOffset x c < n + 1) ↔ (colOffset x c < n) := by omega
        simp [hne, this]
    · rw [drawPixel_collision, Bool.or_eq_true, ihv, ihc]
      have hself : colOffset x (pixelCol x n) = n := (pixelCol_eq_iff x n (by omega) _).mp rfl
      simp only [hself, Nat.lt_irrefl, decide_false, Bool.and_false, Bool.false_and, Bool.bne_false,
        Bool.and_eq_true, or_assoc]
      constructor
      · rintro (h | ⟨c, hc, hb, hcell⟩ | ⟨hb, hcell⟩)
        · exact .inl h
        · exact .inr ⟨c, by omega, hb, hcell⟩
        · exact .inr ⟨_, by omega, by rw [hself]; exact hb, hcell⟩
      · rintro (h | ⟨c, hc, hb, hcell⟩)
        · exact .inl h
        · by_cases h : colOffset x c = n
          · have := (pixelCol_eq_iff x n (by omega) c).mpr h
            subst this
            rw [hself] at hb
            exact .inr (.inr ⟨hb, hcell⟩)
          · exact .inr (.inl ⟨c, by omega, hb, hcell⟩)

/-- The blitter (R222, R224): every cell is flipped by the sprite's pixel on it, and the collision is that of the cells
before. At most 32 rows, so that no cell is addressed twice. -/
theorem drawSprite_spec (m : Memory) (base : Nat) (x y : Byte) (n : Nat) (fb : Fb) (hn : n ≤ 32) :
    (∀ c r, Fb.cell (drawSprite m base x y n fb).1 c r = (Fb.cell fb c r !=
      (decide (rowOffset y r < n) && (decide (colOffset x c < 8) &&
        spriteBit (m.read (base + rowOffset y r)) (colOffset x c))))) ∧
    ((drawSprite m base x y n fb).2 = true ↔
      ∃ c r, rowOffset y r < n ∧ colOffset x c < 8 ∧
        spriteBit (m.read (base + rowOffset y r)) (colOffset x c) = true ∧ Fb.cell fb c r = true) := by
  unfold drawSprite
  induction n with
  | zero => simp
  | succ n ih =>
    obtain ⟨ihc, ihv⟩ := ih (by omega)
    simp only [List.range_succ, List.foldl_append, List.foldl_cons, List.foldl_nil]
    have hself : rowOffset y (pixelRow y n) = n := (pixelRow_eq_iff y n (by omega) _).mp rfl
    have hrow := drawRow_first ((List.range n).foldl
      (fun acc r => drawRow acc x (pixelRow y r) (m.read (base + r))) (fb, false)) x (pixelRow y n)
      (m.read (base + n)) 8 (by omega)
    refine ⟨fun c r => ?_, ?_⟩
    · unfold drawRow at hrow ihc ⊢
      rw [hrow.1, ihc]
      have hiff := pixelRow_eq_iff y n (by omega) r
      by_cases h : rowOffset y r = n
      · simp [hiff.mpr h, hself]
      · have hne : ¬ r = pixelRow y n := fun e => h (hiff.mp e)
        have : (rowOffset y r < n + 1) ↔ (rowOffset y r < n) := by omega
        simp [hne, this]
    · unfold drawRow at hrow ihc ihv ⊢
      rw [hrow.2, ihv]
      constructor
      · rintro (⟨c, r, hr, h⟩ | ⟨c, hc, hb, hcell⟩)
        · exact ⟨c, r, by omega, h⟩
        · rw [ihc, hself] at hcell
          exact ⟨c, pixelRow y n, by omega, hc, by rw [hself]; exact hb, by simpa using hcell⟩
      · rintro ⟨c, r, hr, hc, hb, hcell⟩
        by_cases h : rowOffset y r = n
        · have := (pixelRow_eq_iff y n (by omega) r).mpr h
          subst this
          rw [hself] at hb
          exact .inr ⟨c, hc, hb, by rw [ihc, hself]; simpa using hcell⟩
        · exact .inl ⟨c, r, by omega, hc, hb, hcell⟩

end Sys2Proof.Machine
end

