-- ==== Sys2Proof/Laws/Exec.lean ====
section
/-! SUPPORT. What exec and a step can do, said once: an instruction completes a body, and a body answers a working copy or
raises. -/

namespace Sys2Proof.Machine

/-- The pseudocode of each instruction, before `complete`. -/
def bodyOf (i : Instr) (s : State) : Except Fault State :=
  match i with
  | .cls => advance { s with fb := Fb.clear } 2
  | .ret => match pop s with
    | .error f => .error f
    | .ok (a, t) => setPC t a.toNat
  | .jp nnn => setPC s nnn.toNat
  | .call nnn => callBody s nnn
  | .seImm x nn => skipIf s (s.reg x == nn)
  | .sneImm x nn => skipIf s (s.reg x != nn)
  | .seReg x y _ => skipIf s (s.reg x == s.reg y)
  | .ldImm x nn => loadReg s x nn
  | .addImm x nn => loadReg s x (addResult (s.reg x) nn)
  | .ldReg x y => loadReg s x (s.reg y)
  | .orReg x y => loadReg s x (s.reg x ||| s.reg y)
  | .andReg x y => loadReg s x (s.reg x &&& s.reg y)
  | .xorReg x y => loadReg s x (s.reg x ^^^ s.reg y)
  | .addReg x y =>
    advance (writeResult s x (addResult (s.reg x) (s.reg y)) (carryFlag (s.reg x) (s.reg y)) true) 2
  | .subReg x y =>
    advance (writeResult s x (subResult (s.reg x) (s.reg y)) (noBorrowFlag (s.reg x) (s.reg y)) true) 2
  | .shr x y =>
    advance (writeResult s x (shrResult (shiftSource s x y)) (some (shrFlag (shiftSource s x y))) false) 2
  | .subn x y =>
    advance (writeResult s x (subResult (s.reg y) (s.reg x)) (noBorrowFlag (s.reg y) (s.reg x)) true) 2
  | .shl x y =>
    advance (writeResult s x (shlResult (shiftSource s x y)) (some (shlFlag (shiftSource s x y))) false) 2
  | .sneReg x y _ => skipIf s (s.reg x != s.reg y)
  | .ldI nnn => advance (s.setI nnn) 2
  | .jpV0 nnn => setPC s (nnn.toNat + (s.reg 0#4).toNat)
  | .rnd x nn => loadReg s.countDraw x (Config.draw8 s.draws &&& nn)
  | .drw x y n => drawBody s x y n
  | .skp x => keySkip s x true
  | .sknp x => keySkip s x false
  | .ldVxDt x => advance (s.setReg x s.delay) 2
  | .ldVxK x => advance { s with waiting := true, waitReg := x } 2
  | .ldDtVx x => advance { s with delay := s.reg x } 2
  | .ldStVx x => advance { s with sound := s.reg x } 2
  | .addI x => addIBody s x
  | .ldF x => advance (s.setI (glyphAddr (s.reg x))) 2
  | .ldB x => bcdBody s x
  | .ldMemVx x => storeBody s x
  | .ldVxMem x => loadBody s x

/-- Every instruction completes its body. -/
theorem exec_eq_complete (i : Instr) (s : State) : exec i s = complete s i (bodyOf i s) := by
  cases i <;> rfl

/-- What an instruction can answer: its working copy, or the state before it with a fault taken. -/
theorem exec_next_iff (i : Instr) (s t : State) :
    exec i s = .next t ↔ bodyOf i s = .ok t ∨ ∃ f, bodyOf i s = .error f ∧ t = s.takeFault (some (encode i)) f := by
  rw [exec_eq_complete, complete_next_iff]

/-- An instruction whose body answers a working copy completes. -/
theorem exec_of_body {i : Instr} {s u : State} (hb : bodyOf i s = .ok u) : exec i s = .next u := by
  rw [exec_eq_complete, hb, complete_ok]

/-- An instruction whose body ends with an Advance that fits completes, with its working copy at the new PC. -/
theorem exec_advance_fits {i : Instr} {s u : State} {k : Nat} (hb : bodyOf i s = advance u k)
    (h : u.pc.toNat + k ≤ 0xFFF) : exec i s = .next (u.putPc (BitVec.ofNat 12 (u.pc.toNat + k))) :=
  exec_of_body (hb.trans (advance_fits u h))

/-- What no instruction writes when it completes: the fault record, the keys, the launch parameters and the events to
come (R34, R37, R262). -/
theorem bodyOf_ok_keeps {i : Instr} {s t : State} (h : bodyOf i s = .ok t) :
    t.halt = s.halt ∧ t.key = s.key ∧ t.params = s.params ∧ t.events = s.events ∧ t.host = s.host ∧ t.arrivals = s.arrivals := by
  cases i <;> simp only [bodyOf, skipIf_eq, loadReg, advance_ok_iff, setPC_ok_iff] at h
  case ret =>
    by_cases h0 : s.sp.val = 0
    · rw [pop_empty s h0] at h; cases h
    · rw [pop_entry s h0] at h; simp at h; subst h; exact ⟨rfl, rfl, rfl, rfl, rfl, rfl⟩
  case call nnn =>
    unfold callBody at h
    split_ifs at h
    by_cases h0 : s.sp.val < 16
    · rw [push_room _ _ h0] at h; simp at h; subst h; exact ⟨rfl, rfl, rfl, rfl, rfl, rfl⟩
    · rw [push_full _ _ h0] at h; cases h
  case drw x y n =>
    unfold drawBody at h
    split at h
    · rw [advance_ok_iff] at h; obtain ⟨-, rfl⟩ := h; exact ⟨rfl, rfl, rfl, rfl, rfl, rfl⟩
    · split at h
      · cases h
      · rw [advance_ok_iff] at h; obtain ⟨-, rfl⟩ := h; exact ⟨rfl, rfl, rfl, rfl, rfl, rfl⟩
  case skp x =>
    unfold keySkip at h; split at h
    · cases h
    · rw [skipIf_eq, advance_ok_iff] at h; obtain ⟨-, rfl⟩ := h; exact ⟨rfl, rfl, rfl, rfl, rfl, rfl⟩
  case sknp x =>
    unfold keySkip at h; split at h
    · cases h
    · rw [skipIf_eq, advance_ok_iff] at h; obtain ⟨-, rfl⟩ := h; exact ⟨rfl, rfl, rfl, rfl, rfl, rfl⟩
  case addI x =>
    unfold addIBody at h; simp only at h
    split at h
    · split at h
      · rw [advance_ok_iff] at h; obtain ⟨-, rfl⟩ := h; exact ⟨rfl, rfl, rfl, rfl, rfl, rfl⟩
      · cases h
    · rw [advance_ok_iff] at h; obtain ⟨-, rfl⟩ := h; exact ⟨rfl, rfl, rfl, rfl, rfl, rfl⟩
  case ldB x =>
    unfold bcdBody at h; split at h
    · cases h
    · rw [advance_ok_iff] at h; obtain ⟨-, rfl⟩ := h; exact ⟨rfl, rfl, rfl, rfl, rfl, rfl⟩
  case ldMemVx x =>
    unfold storeBody at h; split at h
    · cases h
    · rw [advance_ok_iff, bulkPostI_eq] at h; obtain ⟨-, rfl⟩ := h; exact ⟨rfl, rfl, rfl, rfl, rfl, rfl⟩
  case ldVxMem x =>
    unfold loadBody at h; split at h
    · cases h
    · rw [advance_ok_iff, bulkPostI_eq, setRegs_eq] at h; obtain ⟨-, rfl⟩ := h; exact ⟨rfl, rfl, rfl, rfl, rfl, rfl⟩
  case addReg => rw [writeResult_eq] at h; obtain ⟨-, rfl⟩ := h; exact ⟨rfl, rfl, rfl, rfl, rfl, rfl⟩
  case subReg => rw [writeResult_eq] at h; obtain ⟨-, rfl⟩ := h; exact ⟨rfl, rfl, rfl, rfl, rfl, rfl⟩
  case subn => rw [writeResult_eq] at h; obtain ⟨-, rfl⟩ := h; exact ⟨rfl, rfl, rfl, rfl, rfl, rfl⟩
  case shr => rw [writeResult_eq] at h; obtain ⟨-, rfl⟩ := h; exact ⟨rfl, rfl, rfl, rfl, rfl, rfl⟩
  case shl => rw [writeResult_eq] at h; obtain ⟨-, rfl⟩ := h; exact ⟨rfl, rfl, rfl, rfl, rfl, rfl⟩
  all_goals (obtain ⟨-, rfl⟩ := h; exact ⟨rfl, rfl, rfl, rfl, rfl, rfl⟩)

/-- What one cycle of the executor can do: run the decoded instruction, or take a fault of the fetch or the decoder. -/
theorem cycle_cases (s : State) :
    (∃ f, fetch s = .error f ∧ cycle s = .next (s.takeFault none f)) ∨
      ∃ w, fetch s = .ok w ∧
        ((∃ r, decode s.params.loose59 w = .error r ∧ cycle s = .next (s.takeFault (some w) (.unknownOpcode w))) ∨
          ∃ i, decode s.params.loose59 w = .ok i ∧ cycle s = exec i s) := by
  unfold cycle
  cases hf : fetch s with
  | error f => exact .inl ⟨f, rfl, rfl⟩
  | ok w =>
    cases hd : decode s.params.loose59 w with
    | error r => exact .inr ⟨w, rfl, .inl ⟨r, hd, by simp [hd]⟩⟩
    | ok i => exact .inr ⟨w, rfl, .inr ⟨i, hd, by simp [hd]⟩⟩

/-- What a STEP can do: nothing after a halt or in a wait, else one cycle. -/
theorem execStep_cases (s : State) :
    ((s.halt ≠ none ∨ s.waiting = true) ∧ execStep s = .next s) ∨
      (s.halt = none ∧ s.waiting = false ∧ execStep s = cycle s) := by
  unfold execStep
  cases hh : s.halt with
  | some r => exact .inl ⟨.inl (by simp), by simp⟩
  | none => cases hw : s.waiting <;> simp

/-- A PC from which no word can be fetched is odd, and the address below it is even. -/
theorem pred_even_of_not_fetchable {s : State}
    (h : ¬ (s.pc.toNat % 2 = 0 ∨ (s.params.allowOddPc = true ∧ s.pc.toNat < 0xFFF))) :
    (s.pc - 1#12).toNat % 2 = 0 := by
  have hodd : s.pc.toNat % 2 = 1 := by omega
  rw [BitVec.toNat_sub]
  have := s.pc.isLt
  simp only [BitVec.toNat_ofNat]
  omega

/-- In every state, the step after `withFetchWord` runs the instruction placed (log 21). -/
theorem step_withFetchWord (s : State) (w : Nat) {i : Instr}
    (h : decode s.params.loose59 (BitVec.ofNat 16 w) = .ok i) :
    step (s.withFetchWord 16 w) = exec i (s.withFetchWord 16 w) := by
  have hf : fetch (s.withFetchWord 16 w) = .ok (BitVec.ofNat 16 w) := by
    rw [fetch_ok]
    · have hw : BitVec.ofNat 16 (w % 65536) = BitVec.ofNat 16 w := by apply BitVec.eq_of_toNat_eq; simp
      simp [State.withFetchWord, hw]
    · simp only [State.withFetchWord]
      split
      · assumption
      · rename_i hn; exact .inl (pred_even_of_not_fetchable hn)
  show cycle (s.withFetchWord 16 w) = _
  unfold cycle
  rw [hf]
  show (match decode s.params.loose59 (BitVec.ofNat 16 w) with | .error _ => _ | .ok j => exec j _) = _
  rw [h]

/-- What the next event is and what the state is in which it is applied (log 10). -/
theorem step_eq (s : State) : step s = applyEvent s.nextEvent s.takeEvent := rfl

theorem nextEvent_listed {s : State} {e : Event} {rest : List Event} (h : s.events = e :: rest) : s.nextEvent = e := by
  simp [State.nextEvent, h]

theorem nextEvent_rounds {s : State} {e : Event} {rest : List Event} (h : s.events = [])
    (hs : s.host = .rounds e rest) : s.nextEvent = e := by
  simp [State.nextEvent, h, hs]

theorem nextEvent_free {s : State} (h : s.events = []) (hs : s.host = .free) :
    s.nextEvent = Config.hostEvent s.arrivals := by
  simp [State.nextEvent, h, hs]

theorem takeEvent_listed {s : State} {e : Event} {rest : List Event} (h : s.events = e :: rest) :
    s.takeEvent = { s with events := rest } := by
  simp [State.takeEvent, State.eventsLeft, State.arrivalsAfter, h]

theorem takeEvent_rounds {s : State} {e : Event} {rest : List Event} (h : s.events = [])
    (hs : s.host = .rounds e rest) : s.takeEvent = { s with events := rest } := by
  simp [State.takeEvent, State.eventsLeft, State.arrivalsAfter, h, hs]

theorem takeEvent_free {s : State} (h : s.events = []) (hs : s.host = .free) :
    s.takeEvent = { s with arrivals := s.arrivals + 1 } := by
  cases s; cases h; cases hs; rfl

/-- With no event listed and a host that delivers STEP alone, taking the next event changes nothing. -/
theorem takeEvent_steps {s : State} (h : s.events = []) (hs : s.host = .rounds .step []) : s.takeEvent = s := by
  cases s; cases h; cases hs; rfl

end Sys2Proof.Machine
end

