-- ==== Sys2Proof/Laws/PerInstr.lean ====
section
/-! SUPPORT. Per-instruction laws of the syntax. Family EncodesInRow: the word of a well-formed instruction selects the
row the opcode table gives it (30_encoding.md R95, R97). -/

namespace Sys2Proof.Laws.EncodesInRow

/-- The word of `i`, where well-formed, selects the row of `i`, under both values of `LOOSE_5_9`. -/
def Statement (i : Instr) : Prop := ∀ loose, i.wf loose = true → (rowOf loose i).selects (encode i) = true

/-- A word of format NNN under the mask of its row. -/
theorem mask_encodeNNN (op : BitVec 4) (nnn : Addr) : encodeNNN op nnn &&& 0xF000#16 = op ++ 0#12 := by
  apply BitVec.eq_of_getLsbD_eq
  intro k hk
  rw [BitVec.getLsbD_and, getLsbD_encodeNNN, BitVec.getLsbD_append]
  interval_cases k <;> simp

/-- A word of format XNN under the mask F000. -/
theorem mask_encodeXNN (op : BitVec 4) (x : RegIdx) (nn : Byte) : encodeXNN op x nn &&& 0xF000#16 = op ++ 0#12 := by
  apply BitVec.eq_of_getLsbD_eq
  intro k hk
  rw [BitVec.getLsbD_and, getLsbD_encodeXNN, BitVec.getLsbD_append]
  interval_cases k <;> simp

/-- A word of format XNN under the mask F0FF. -/
theorem mask_encodeXkk (op : BitVec 4) (x : RegIdx) (nn : Byte) :
    encodeXNN op x nn &&& 0xF0FF#16 = op ++ (0#4 ++ nn) := by
  apply BitVec.eq_of_getLsbD_eq
  intro k hk
  rw [BitVec.getLsbD_and, getLsbD_encodeXNN, BitVec.getLsbD_append, BitVec.getLsbD_append]
  interval_cases k <;> simp

/-- A word of format XYN under the mask F000. -/
theorem mask_encodeXYN (op : BitVec 4) (x y : RegIdx) (n : BitVec 4) :
    encodeXYN op x y n &&& 0xF000#16 = op ++ 0#12 := by
  apply BitVec.eq_of_getLsbD_eq
  intro k hk
  rw [BitVec.getLsbD_and, getLsbD_encodeXYN, BitVec.getLsbD_append]
  interval_cases k <;> simp

/-- A word of format XYN under the mask F00F. -/
theorem mask_encodeXYn (op : BitVec 4) (x y : RegIdx) (n : BitVec 4) :
    encodeXYN op x y n &&& 0xF00F#16 = op ++ (0#8 ++ n) := by
  apply BitVec.eq_of_getLsbD_eq
  intro k hk
  rw [BitVec.getLsbD_and, getLsbD_encodeXYN, BitVec.getLsbD_append, BitVec.getLsbD_append]
  interval_cases k <;> simp

theorem cls : Statement (.cls) := by
  intro loose _; cases loose <;> decide

theorem ret : Statement (.ret) := by
  intro loose _; cases loose <;> decide

theorem jp (nnn : Addr) : Statement (.jp nnn) := by
  intro loose _; simp [rowOf, Row.selects, encode, mask_encodeNNN]

theorem call (nnn : Addr) : Statement (.call nnn) := by
  intro loose _; simp [rowOf, Row.selects, encode, mask_encodeNNN]

theorem seImm (x : RegIdx) (nn : Byte) : Statement (.seImm x nn) := by
  intro loose _; simp [rowOf, Row.selects, encode, mask_encodeXNN]

theorem sneImm (x : RegIdx) (nn : Byte) : Statement (.sneImm x nn) := by
  intro loose _; simp [rowOf, Row.selects, encode, mask_encodeXNN]

theorem seReg (x y : RegIdx) (n : BitVec 4) : Statement (.seReg x y n) := by
  intro loose h
  cases loose
  · have hn : n = 0#4 := by simpa [Instr.wf] using h
    subst hn
    simp [rowOf, Row.selects, encode, mask_encodeXYn]
  · simp [rowOf, Row.selects, encode, mask_encodeXYN]

theorem ldImm (x : RegIdx) (nn : Byte) : Statement (.ldImm x nn) := by
  intro loose _; simp [rowOf, Row.selects, encode, mask_encodeXNN]

theorem addImm (x : RegIdx) (nn : Byte) : Statement (.addImm x nn) := by
  intro loose _; simp [rowOf, Row.selects, encode, mask_encodeXNN]

theorem ldReg (x y : RegIdx) : Statement (.ldReg x y) := by
  intro loose _; simp [rowOf, Row.selects, encode, mask_encodeXYn]

theorem orReg (x y : RegIdx) : Statement (.orReg x y) := by
  intro loose _; simp [rowOf, Row.selects, encode, mask_encodeXYn]

theorem andReg (x y : RegIdx) : Statement (.andReg x y) := by
  intro loose _; simp [rowOf, Row.selects, encode, mask_encodeXYn]

theorem xorReg (x y : RegIdx) : Statement (.xorReg x y) := by
  intro loose _; simp [rowOf, Row.selects, encode, mask_encodeXYn]

theorem addReg (x y : RegIdx) : Statement (.addReg x y) := by
  intro loose _; simp [rowOf, Row.selects, encode, mask_encodeXYn]

theorem subReg (x y : RegIdx) : Statement (.subReg x y) := by
  intro loose _; simp [rowOf, Row.selects, encode, mask_encodeXYn]

theorem shr (x y : RegIdx) : Statement (.shr x y) := by
  intro loose _; simp [rowOf, Row.selects, encode, mask_encodeXYn]

theorem subn (x y : RegIdx) : Statement (.subn x y) := by
  intro loose _; simp [rowOf, Row.selects, encode, mask_encodeXYn]

theorem shl (x y : RegIdx) : Statement (.shl x y) := by
  intro loose _; simp [rowOf, Row.selects, encode, mask_encodeXYn]

theorem sneReg (x y : RegIdx) (n : BitVec 4) : Statement (.sneReg x y n) := by
  intro loose h
  cases loose
  · have hn : n = 0#4 := by simpa [Instr.wf] using h
    subst hn
    simp [rowOf, Row.selects, encode, mask_encodeXYn]
  · simp [rowOf, Row.selects, encode, mask_encodeXYN]

theorem ldI (nnn : Addr) : Statement (.ldI nnn) := by
  intro loose _; simp [rowOf, Row.selects, encode, mask_encodeNNN]

theorem jpV0 (nnn : Addr) : Statement (.jpV0 nnn) := by
  intro loose _; simp [rowOf, Row.selects, encode, mask_encodeNNN]

theorem rnd (x : RegIdx) (nn : Byte) : Statement (.rnd x nn) := by
  intro loose _; simp [rowOf, Row.selects, encode, mask_encodeXNN]

theorem drw (x y : RegIdx) (n : BitVec 4) : Statement (.drw x y n) := by
  intro loose _; simp [rowOf, Row.selects, encode, mask_encodeXYN]

theorem skp (x : RegIdx) : Statement (.skp x) := by
  intro loose _; simp [rowOf, Row.selects, encode, mask_encodeXkk]

theorem sknp (x : RegIdx) : Statement (.sknp x) := by
  intro loose _; simp [rowOf, Row.selects, encode, mask_encodeXkk]

theorem ldVxDt (x : RegIdx) : Statement (.ldVxDt x) := by
  intro loose _; simp [rowOf, Row.selects, encode, mask_encodeXkk]

theorem ldVxK (x : RegIdx) : Statement (.ldVxK x) := by
  intro loose _; simp [rowOf, Row.selects, encode, mask_encodeXkk]

theorem ldDtVx (x : RegIdx) : Statement (.ldDtVx x) := by
  intro loose _; simp [rowOf, Row.selects, encode, mask_encodeXkk]

theorem ldStVx (x : RegIdx) : Statement (.ldStVx x) := by
  intro loose _; simp [rowOf, Row.selects, encode, mask_encodeXkk]

theorem addI (x : RegIdx) : Statement (.addI x) := by
  intro loose _; simp [rowOf, Row.selects, encode, mask_encodeXkk]

theorem ldF (x : RegIdx) : Statement (.ldF x) := by
  intro loose _; simp [rowOf, Row.selects, encode, mask_encodeXkk]

theorem ldB (x : RegIdx) : Statement (.ldB x) := by
  intro loose _; simp [rowOf, Row.selects, encode, mask_encodeXkk]

theorem ldMemVx (x : RegIdx) : Statement (.ldMemVx x) := by
  intro loose _; simp [rowOf, Row.selects, encode, mask_encodeXkk]

theorem ldVxMem (x : RegIdx) : Statement (.ldVxMem x) := by
  intro loose _; simp [rowOf, Row.selects, encode, mask_encodeXkk]

end Sys2Proof.Laws.EncodesInRow
end

