-- ==== Sys2Proof/Laws/Schedule.lean ====
section
/-! SUPPORT. The schedule of a run (R273, R276): no event reads or writes it, so the events of a run are fixed by its first
state. -/

namespace Sys2Proof.Machine

/-- `s` with another schedule: the events listed, the source and its count. -/
def State.withSchedule (s : State) (l : List Event) (h : EventSource) (n : Nat) : State :=
  { s with events := l, host := h, arrivals := n }

/-! ## Runs, one event at a time -/

@[simp] theorem State.afterEvents_zero (s : State) : s.afterEvents 0 = s := rfl
@[simp] theorem State.afterEvents_succ (s : State) (n : Nat) :
    s.afterEvents (n + 1) = (s.afterEvents n).takeEvent := rfl
@[simp] theorem State.afterSteps_zero (s : State) : s.afterSteps 0 = s := rfl
@[simp] theorem State.afterSteps_succ (s : State) (n : Nat) :
    s.afterSteps (n + 1) = (s.afterSteps n).goesOn (step (s.afterSteps n)) := rfl
@[simp] theorem State.goesOn_next (s t : State) : s.goesOn (.next t) = t := rfl

/-! ## No instruction reads the schedule -/

theorem advance_withSchedule (s : State) (k : Nat) (l : List Event) (h : EventSource) (n : Nat) :
    advance (s.withSchedule l h n) k = (advance s k).map (·.withSchedule l h n) := by
  unfold advance setPC State.withSchedule
  simp only []
  split <;> rfl

theorem skipIf_withSchedule (s : State) (c : Bool) (l : List Event) (h : EventSource) (n : Nat) :
    skipIf (s.withSchedule l h n) c = (skipIf s c).map (·.withSchedule l h n) := by
  rw [skipIf_eq, skipIf_eq, advance_withSchedule]

theorem writeResult_withSchedule (s : State) (x : RegIdx) (r : Byte) (flag : Option Byte) (d : Bool) (l : List Event)
    (h : EventSource) (n : Nat) :
    writeResult (s.withSchedule l h n) x r flag d = (writeResult s x r flag d).withSchedule l h n := by
  unfold writeResult orderedWrites State.withSchedule
  simp only []
  split_ifs <;> cases flag <;> rfl

theorem setRegs_withSchedule (s : State) (f : Nat → Byte) (k : Nat) (l : List Event) (h : EventSource) (n : Nat) :
    (s.withSchedule l h n).setRegs f k = (s.setRegs f k).withSchedule l h n := by
  induction k with
  | zero => rfl
  | succ k ih => rw [setRegs_succ, setRegs_succ, ih]; rfl

/-- The range check does not read the schedule. -/
theorem checkRange_withSchedule (s : State) (a b : Nat) (l : List Event) (h : EventSource) (n : Nat) :
    checkRange (s.withSchedule l h n) a b = checkRange s a b := rfl

/-- The body of an instruction neither reads nor writes the schedule. -/
theorem bodyOf_withSchedule (i : Instr) (s : State) (l : List Event) (h : EventSource) (n : Nat) :
    bodyOf i (s.withSchedule l h n) = (bodyOf i s).map (·.withSchedule l h n) := by
  cases i
  case ret =>
    simp only [bodyOf]
    by_cases h0 : s.sp.val = 0
    · rw [pop_empty s h0, pop_empty _ (show (s.withSchedule l h n).sp.val = 0 from h0)]; rfl
    · rw [pop_entry s h0, pop_entry _ (show (s.withSchedule l h n).sp.val ≠ 0 from h0)]
      simp [Except.map, State.withSchedule, State.putPc]
  case call nnn =>
    simp only [bodyOf, callBody]
    show (if s.sp.val = 16 then _ else _) = _
    by_cases h0 : s.sp.val = 16
    · simp [h0, Except.map]
    · have hr : s.sp.val < 16 := by omega
      rw [push_room s _ hr, push_room (s.withSchedule l h n) _ (show (s.withSchedule l h n).sp.val < 16 from hr)]
      simp only [h0, setPC_addr, if_false]
      show (if s.pc.toNat + 2 > 0xFFF then _ else _) = _
      split <;> simp [Except.map, State.withSchedule, State.putPc]
  case seImm => exact skipIf_withSchedule _ _ _ _ _
  case sneImm => exact skipIf_withSchedule _ _ _ _ _
  case seReg => exact skipIf_withSchedule _ _ _ _ _
  case sneReg => exact skipIf_withSchedule _ _ _ _ _
  case skp x =>
    simp only [bodyOf, keySkip]
    rw [show keyLookup (s.withSchedule l h n) ((s.withSchedule l h n).reg x) = keyLookup s (s.reg x) from rfl]
    cases keyLookup s (s.reg x) with
    | error f => rfl
    | ok p => exact skipIf_withSchedule _ _ _ _ _
  case sknp x =>
    simp only [bodyOf, keySkip]
    rw [show keyLookup (s.withSchedule l h n) ((s.withSchedule l h n).reg x) = keyLookup s (s.reg x) from rfl]
    cases keyLookup s (s.reg x) with
    | error f => rfl
    | ok p => exact skipIf_withSchedule _ _ _ _ _
  case jp => simp [bodyOf, Except.map, State.withSchedule, State.putPc]
  case jpV0 nnn =>
    simp only [bodyOf]
    show setPC _ (nnn.toNat + (s.reg 0#4).toNat) = _
    unfold setPC
    split <;> rfl
  case addReg => simp only [bodyOf]; rw [← advance_withSchedule, ← writeResult_withSchedule]; rfl
  case subReg => simp only [bodyOf]; rw [← advance_withSchedule, ← writeResult_withSchedule]; rfl
  case subn => simp only [bodyOf]; rw [← advance_withSchedule, ← writeResult_withSchedule]; rfl
  case shr => simp only [bodyOf]; rw [← advance_withSchedule, ← writeResult_withSchedule]; rfl
  case shl => simp only [bodyOf]; rw [← advance_withSchedule, ← writeResult_withSchedule]; rfl
  case drw x y m =>
    simp only [bodyOf, drawBody]
    rw [checkRange_withSchedule]
    split
    · rw [← advance_withSchedule]; rfl
    · show (match checkRange s s.i.toNat (s.i.toNat + m.toNat - 1) with | .error f => _ | .ok () => _) = _
      cases checkRange s s.i.toNat (s.i.toNat + m.toNat - 1) with
      | error f => rfl
      | ok u => simp only []; rw [← advance_withSchedule]; rfl
  case ldB x =>
    simp only [bodyOf, bcdBody]
    show (match checkRange s s.i.toNat (s.i.toNat + 2) with | .error f => _ | .ok () => _) = _
    cases checkRange s s.i.toNat (s.i.toNat + 2) with
    | error f => rfl
    | ok u => simp only []; rw [← advance_withSchedule]; rfl
  case ldMemVx x =>
    simp only [bodyOf, storeBody, bulkPostI_eq]
    show (match checkRange s s.i.toNat (s.i.toNat + x.toNat) with | .error f => _ | .ok () => _) = _
    cases checkRange s s.i.toNat (s.i.toNat + x.toNat) with
    | error f => rfl
    | ok u => simp only []; rw [← advance_withSchedule]; rfl
  case ldVxMem x =>
    simp only [bodyOf, loadBody, bulkPostI_eq, setRegs_withSchedule]
    show (match checkRange s s.i.toNat (s.i.toNat + x.toNat) with | .error f => _ | .ok () => _) = _
    cases checkRange s s.i.toNat (s.i.toNat + x.toNat) with
    | error f => rfl
    | ok u =>
      simp only []
      rw [← advance_withSchedule]
      rw [show (fun k => (s.withSchedule l h n).mem.read ((s.withSchedule l h n).i.toNat + k)) =
        fun k => s.mem.read (s.i.toNat + k) from rfl]
      generalize s.setRegs (fun k => s.mem.read (s.i.toNat + k)) (x.toNat + 1) = q
      rfl
  case addI x =>
    simp only [bodyOf, addIBody]
    show (if s.i.toNat + (s.reg x).toNat > 0xFFF then
      (match s.params.iAddOverflow with | .wrap => _ | .fault => _) else _) = _
    cases s.params.iAddOverflow <;> split <;> first | rfl | (rw [← advance_withSchedule]; rfl)
  all_goals (simp only [bodyOf, loadReg]; rw [← advance_withSchedule]; rfl)

/-- What an outcome goes on with, given another schedule. -/
def mapNext (f : State → State) : Host.Outcome State Fault Refusal → Host.Outcome State Fault Refusal
  | .next t => .next (f t)
  | o => o

@[simp] theorem mapNext_next (f : State → State) (t : State) : mapNext f (.next t) = .next (f t) := rfl

theorem exec_withSchedule (i : Instr) (s : State) (l : List Event) (h : EventSource) (n : Nat) :
    exec i (s.withSchedule l h n) = mapNext (·.withSchedule l h n) (exec i s) := by
  rw [exec_eq_complete, exec_eq_complete, bodyOf_withSchedule]
  cases bodyOf i s <;> rfl

/-- No event reads the schedule: with another one it does the same to everything else, and keeps it. -/
theorem applyEvent_withSchedule (e : Event) (s : State) (l : List Event) (h : EventSource) (n : Nat) :
    applyEvent e (s.withSchedule l h n) = mapNext (·.withSchedule l h n) (applyEvent e s) := by
  cases e with
  | step =>
    show execStep (s.withSchedule l h n) = mapNext _ (execStep s)
    unfold execStep
    show (if s.halt.isSome = true then _ else if s.waiting = true then _ else _) = _
    split_ifs
    · rfl
    · rfl
    · unfold cycle
      rw [show fetch (s.withSchedule l h n) = fetch s from rfl]
      cases fetch s with
      | error f => rfl
      | ok w =>
        show (match decode s.params.loose59 w with | .error _ => _ | .ok i => _) =
          mapNext _ (match decode s.params.loose59 w with | .error _ => _ | .ok i => _)
        cases decode s.params.loose59 w with
        | error r => rfl
        | ok i => exact exec_withSchedule i s l h n
  | tick =>
    show Host.Outcome.next (applyTick _) = .next _
    unfold applyTick
    show Host.Outcome.next (if s.halt.isSome = true then _ else _) = _
    split_ifs <;> rfl
  | keyDown k =>
    show Host.Outcome.next (applyKeyDown _ k) = .next _
    unfold applyKeyDown
    show Host.Outcome.next (if s.halt.isSome = true then _ else if s.waiting = true then _ else _) = _
    split_ifs <;> rfl
  | keyUp k =>
    show Host.Outcome.next (applyKeyUp _ k) = .next _
    unfold applyKeyUp
    show Host.Outcome.next (if s.halt.isSome = true then _ else _) = _
    split_ifs <;> rfl

/-- No event writes the schedule. -/
theorem applyEvent_schedule {e : Event} {s t : State} (h : applyEvent e s = .next t) :
    t.events = s.events ∧ t.host = s.host ∧ t.arrivals = s.arrivals := by
  have hw := applyEvent_withSchedule e s s.events s.host s.arrivals
  rw [show s.withSchedule s.events s.host s.arrivals = s from rfl, h, mapNext_next] at hw
  injection hw with hw
  rw [hw]
  exact ⟨rfl, rfl, rfl⟩

end Sys2Proof.Machine
end

