-- ==== Sys2Proof/Tests/Slice0.lean ====
section
/-! SUPPORT. Tests. The words are written out from the encodings of 30_encoding.md R95, the expected results are those of
95_test_vectors.md, whose row each test names. The witnesses show, for each statement with hypotheses, states and operands
that meet them. -/

namespace Sys2Proof.Tests

open Sys2Proof Sys2Proof.Machine Sys2Proof.Claims

/-! ## Small states -/

/-- Reset with another PC. -/
def atPc (pc : Addr) : State := { State.reset with pc := pc }

/-- Reset with two registers set. -/
def regs (x : RegIdx) (a : Byte) (y : RegIdx) (b : Byte) : State := (State.reset.setReg x a).setReg y b

/-- `s` with other launch parameters. -/
def under (s : State) (f : Params → Params) : State := { s with params := f s.params }

/-- `COMPAT` = true. -/
def compatOn (s : State) : State := under s fun p => { p with compat := true }

/-- The state an outcome goes on with. -/
def Next (o : Host.Outcome State Fault Refusal) (s : State) : State :=
  match o with
  | .next t => t
  | _ => s

/-- `s` after one step that fetches `w` at its PC. -/
def run (s : State) (w : Nat) : State := Next (step (s.withFetchWord 16 w)) s

/-- A halt of an instruction at `pc`. -/
def halted (code : FaultCode) (pc : Addr) (word : Word) (info : Nat) : Option FaultRecord :=
  some { code := code, pc := pc, word := some word, info := info }

/-! ## WellFormed: the one check of R97, and an ill-formed term it refuses -/

theorem test_wf_seReg : Instr.wf false (.seReg 1 2 1) = false ∧ Instr.wf true (.seReg 1 2 1) = true := by decide
theorem test_wf_sneReg : Instr.wf false (.sneReg 1 2 0xF) = false ∧ Instr.wf false (.sneReg 1 2 0) = true := by decide

/-! ## Decode: a word of every row of R95 -/

theorem test_decode_control :
    decode false 0x00E0#16 = .ok .cls ∧ decode false 0x00EE#16 = .ok .ret ∧
    decode false 0x1ABC#16 = .ok (.jp 0xABC#12) ∧ decode false 0x2ABC#16 = .ok (.call 0xABC#12) ∧
    decode false 0xBABC#16 = .ok (.jpV0 0xABC#12) := by decide

theorem test_decode_skips :
    decode false 0x3A5C#16 = .ok (.seImm 0xA#4 0x5C#8) ∧ decode false 0x4A5C#16 = .ok (.sneImm 0xA#4 0x5C#8) ∧
    decode false 0x5AB0#16 = .ok (.seReg 0xA#4 0xB#4 0#4) ∧ decode false 0x9AB0#16 = .ok (.sneReg 0xA#4 0xB#4 0#4) ∧
    decode false 0xEA9E#16 = .ok (.skp 0xA#4) ∧ decode false 0xEAA1#16 = .ok (.sknp 0xA#4) := by decide

theorem test_decode_group8 :
    decode false 0x8AB0#16 = .ok (.ldReg 0xA#4 0xB#4) ∧ decode false 0x8AB1#16 = .ok (.orReg 0xA#4 0xB#4) ∧
    decode false 0x8AB2#16 = .ok (.andReg 0xA#4 0xB#4) ∧ decode false 0x8AB3#16 = .ok (.xorReg 0xA#4 0xB#4) ∧
    decode false 0x8AB4#16 = .ok (.addReg 0xA#4 0xB#4) ∧ decode false 0x8AB5#16 = .ok (.subReg 0xA#4 0xB#4) ∧
    decode false 0x8AB6#16 = .ok (.shr 0xA#4 0xB#4) ∧ decode false 0x8AB7#16 = .ok (.subn 0xA#4 0xB#4) ∧
    decode false 0x8ABE#16 = .ok (.shl 0xA#4 0xB#4) := by decide

theorem test_decode_immediate_index_display :
    decode false 0x6A5C#16 = .ok (.ldImm 0xA#4 0x5C#8) ∧ decode false 0x7A5C#16 = .ok (.addImm 0xA#4 0x5C#8) ∧
    decode false 0xAABC#16 = .ok (.ldI 0xABC#12) ∧ decode false 0xCA5C#16 = .ok (.rnd 0xA#4 0x5C#8) ∧
    decode false 0xDAB5#16 = .ok (.drw 0xA#4 0xB#4 5#4) := by decide

theorem test_decode_groupF :
    decode false 0xFA07#16 = .ok (.ldVxDt 0xA#4) ∧ decode false 0xFA0A#16 = .ok (.ldVxK 0xA#4) ∧
    decode false 0xFA15#16 = .ok (.ldDtVx 0xA#4) ∧ decode false 0xFA18#16 = .ok (.ldStVx 0xA#4) ∧
    decode false 0xFA1E#16 = .ok (.addI 0xA#4) ∧ decode false 0xFA29#16 = .ok (.ldF 0xA#4) ∧
    decode false 0xFA33#16 = .ok (.ldB 0xA#4) ∧ decode false 0xFA55#16 = .ok (.ldMemVx 0xA#4) ∧
    decode false 0xFA65#16 = .ok (.ldVxMem 0xA#4) := by decide

/-- E2 to E5: words that select no row. -/
theorem test_decode_unknown :
    [0x0123#16, 0x0000#16, 0x8008#16, 0x800F#16, 0xE0A2#16, 0xF000#16, 0xF0FF#16, 0x5121#16, 0x9121#16].all
      (fun w => match decode false w with | .error r => r == .unknownOpcode w | .ok _ => false) = true := by decide

/-- R90: the byte at the lower address is the high byte; one byte alone is no instruction. -/
theorem test_decodeBytes :
    decodeBytes false [0x12#8, 0x34#8, 0xFF#8] = .ok (.jp 0x234#12, [0xFF#8]) ∧
    decodeBytes false [0x12#8] = .error .truncated ∧ decodeTableWord 16 0x1234 = some (.jp 0x234#12) ∧
    decodeTableWord 16 0x0123 = none := by decide

/-! ## Fetch, control transfer -/

/-- E3: a zero-filled memory traps at once. -/
theorem test_reset_step : (Next (step State.reset) State.reset).halt = halted .unknownOpcode 0x200#12 0#16 0 := by decide

/-- E8: an odd target faults at the next fetch, with no word. -/
theorem test_odd_jump : (Next (step (run State.reset 0x1201)) State.reset).halt =
    some { code := .misalignedFetch, pc := 0x201#12, word := none, info := 0x201 } := by decide

/-- B1. -/
theorem test_jp : (run State.reset 0x1200).pc = 0x200#12 ∧ (run State.reset 0x1234).pc = 0x234#12 := by decide

/-- B2. -/
theorem test_call : let t := run State.reset 0x2300
    t.stack[0] = 0x202#12 ∧ t.sp = 1 ∧ t.pc = 0x300#12 := by decide

/-- B5 and B6: overflow is checked first. -/
theorem test_call_faults :
    (run (atPc 0xFFE#12) 0x2300).halt = halted .pcOutOfRange 0xFFE#12 0x2300#16 0x1000 ∧
    (run { atPc 0xFFE#12 with sp := 16 } 0x2300).halt = halted .stackOverflow 0xFFE#12 0x2300#16 0x2300 := by decide

/-- B3. -/
theorem test_ret : let t := run (run State.reset 0x2300) 0x00EE
    t.sp = 0 ∧ t.pc = 0x202#12 := by decide

/-- S5. -/
theorem test_ret_empty : let t := run State.reset 0x00EE
    t.halt = halted .stackUnderflow 0x200#12 0x00EE#16 0xEE ∧ t.pc = 0x200#12 := by decide

/-- B7. -/
theorem test_seImm : let s := regs 3 0x12#8 0 0#8
    (run s 0x3312).pc = 0x204#12 ∧ (run s 0x3313).pc = 0x202#12 := by decide

/-- B11 and B12. -/
theorem test_seImm_top :
    (run (atPc 0xFFC#12) 0x3000).halt = halted .pcOutOfRange 0xFFC#12 0x3000#16 0x1000 ∧
    (run { regs 0 1#8 1 0#8 with pc := 0xFFC#12 } 0x3000).pc = 0xFFE#12 := by decide

/-- B8. -/
theorem test_sneImm : let s := regs 3 0x12#8 0 0#8
    (run s 0x4312).pc = 0x202#12 ∧ (run s 0x4313).pc = 0x204#12 := by decide

/-- B9. -/
theorem test_register_skips : let s := regs 1 7#8 2 7#8
    (run s 0x5120).pc = 0x204#12 ∧ (run s 0x9120).pc = 0x202#12 := by decide

/-- E6 and E7 with `LOOSE_5_9` = true. -/
theorem test_register_skips_loose : let p := fun p : Params => { p with loose59 := true }
    (run (under State.reset p) 0x5121).pc = 0x204#12 ∧ (run (under (regs 1 0#8 2 1#8) p) 0x9121).pc = 0x204#12 := by
  decide

/-- B17, with the sum R129 gives for its word: NNN of 0xB500 is 0x500 (log 22). -/
theorem test_jpV0 : (run (regs 0 5#8 5 0#8) 0xB500).pc = 0x505#12 ∧ (run (regs 0 5#8 5 0#8) 0xB000).pc = 0x005#12 := by
  decide

/-- B16. -/
theorem test_jpV0_top : (run (regs 0 0xFF#8 1 0#8) 0xBFFF).halt = halted .pcOutOfRange 0x200#12 0xBFFF#16 0x10FE := by
  decide

/-! ## Loads, arithmetic, logic, shifts, random -/

/-- A1. -/
theorem test_ldImm : (run State.reset 0x6A42).reg 0xA = 0x42#8 := by decide

/-- B13. -/
theorem test_ldImm_top : let t := run (atPc 0xFFE#12) 0x6001
    t.halt = halted .pcOutOfRange 0xFFE#12 0x6001#16 0x1000 ∧ t.reg 0 = 0#8 := by decide

/-- A2. -/
theorem test_addImm : let t := run (regs 0 0xFF#8 1 0#8) 0x7001
    t.reg 0 = 0#8 ∧ t.reg regF = 0#8 := by decide

/-- A4. -/
theorem test_ldReg : (run (regs 0 0#8 1 0x33#8) 0x8010).reg 0 = 0x33#8 := by decide

/-- A5. -/
theorem test_logic : let s := (regs 0 0x0F#8 1 0xF0#8).setReg regF 7#8
    (run s 0x8011).reg 0 = 0xFF#8 ∧ (run s 0x8012).reg 0 = 0#8 ∧ (run s 0x8013).reg 0 = 0xFF#8 ∧
    (run s 0x8011).reg regF = 7#8 := by decide

/-- A8. -/
theorem test_addReg : let t := run ((regs 0 1#8 1 2#8).setReg regF 5#8) 0x8014
    t.reg 0 = 3#8 ∧ t.reg regF = 5#8 := by decide

/-- A10 and A11: the destination is VF. -/
theorem test_addReg_F :
    (run (regs 0 1#8 regF 0xFF#8) 0x8F04).reg regF = 1#8 ∧ (run (regs 0 1#8 regF 1#8) 0x8F04).reg regF = 2#8 := by decide

/-- A14. -/
theorem test_subReg : let t := run ((regs 0 3#8 1 5#8).setReg regF 9#8) 0x8015
    t.reg 0 = 0xFE#8 ∧ t.reg regF = 9#8 := by decide

/-- A15 to A17. -/
theorem test_subReg_F : (run (regs 0 7#8 1 0#8) 0x8005).reg regF = 1#8 ∧
    (run (regs 0 5#8 regF 3#8) 0x8F05).reg regF = 0xFE#8 ∧ (run (regs 0 3#8 regF 5#8) 0x8F05).reg regF = 1#8 := by decide

/-- A21. -/
theorem test_shr : let s := regs 0 5#8 1 0xC#8
    (run s 0x8016).reg 0 = 6#8 ∧ (run s 0x8016).reg regF = 0#8 ∧
    (run (compatOn s) 0x8016).reg 0 = 2#8 ∧ (run (compatOn s) 0x8016).reg regF = 1#8 := by decide

/-- A24: the result is the last write of VF. -/
theorem test_shr_F : let s := regs 0 0xC#8 regF 3#8
    (run s 0x8F06).reg regF = 6#8 ∧ (run (compatOn s) 0x8F06).reg regF = 1#8 := by decide

/-- A18 and A19. -/
theorem test_subn :
    (run (regs 0 3#8 1 5#8) 0x8017).reg 0 = 2#8 ∧ (run (regs 0 3#8 1 5#8) 0x8017).reg regF = 1#8 ∧
    (run (regs 0 5#8 1 3#8) 0x8017).reg 0 = 0xFE#8 ∧ (run (regs 0 5#8 1 3#8) 0x8017).reg regF = 0#8 := by decide

/-- A20. -/
theorem test_subn_F : (run (regs 0 5#8 regF 3#8) 0x8F07).reg regF = 1#8 := by decide

/-- A22. -/
theorem test_shl : let s := regs 0 1#8 1 0x81#8
    (run s 0x801E).reg 0 = 2#8 ∧ (run s 0x801E).reg regF = 1#8 ∧
    (run (compatOn s) 0x801E).reg 0 = 2#8 ∧ (run (compatOn s) 0x801E).reg regF = 0#8 := by decide

/-- A25. -/
theorem test_shl_F : (run (regs 0 0x81#8 regF 3#8) 0x8F0E).reg regF = 2#8 := by decide

/-- A27: the free byte cannot be evaluated, but a mask of 0 leaves nothing of it. -/
theorem test_rnd_zero : (run State.reset 0xC300).reg 3 = 0#8 := by
  show Config.draw8 0 &&& 0#8 = 0#8
  exact BitVec.and_zero

/-- A28, and one free input is consumed. -/
theorem test_rnd_ones : (run State.reset 0xC3FF).reg 3 = Config.draw8 0 ∧ (run State.reset 0xC3FF).draws = 1 := by
  refine ⟨?_, by decide⟩
  show Config.draw8 0 &&& 0xFF#8 = Config.draw8 0
  exact BitVec.and_allOnes

/-! ## Address register and memory -/

/-- M1. -/
theorem test_ldI : (run State.reset 0xA123).i = 0x123#12 := by decide

/-- M3. -/
theorem test_addI : let s := (regs 0 0x20#8 1 0#8).setI 0xFF0#12
    (run s 0xF01E).i = 0x010#12 ∧ (run (under s fun p => { p with iAddOverflow := .fault }) 0xF01E).halt =
      halted .iAddOverflow 0x200#12 0xF01E#16 0x1010 := by decide

/-- S11 and M5. -/
theorem test_ldF : (run (regs 0 0x1A#8 1 0#8) 0xF029).i = 0x032#12 ∧ (run (regs 0 0xFF#8 1 0#8) 0xF029).i = 0x04B#12 := by
  decide

/-- M8. -/
theorem test_ldB : let t := run ((regs 0 123#8 1 0#8).setI 0xFFD#12) 0xF033
    t.mem.read 0xFFD = 1#8 ∧ t.mem.read 0xFFE = 2#8 ∧ t.mem.read 0xFFF = 3#8 ∧ t.i = 0xFFD#12 := by decide

/-- M9. -/
theorem test_ldB_top : let t := run (State.reset.setI 0xFFE#12) 0xF033
    t.halt = halted .memOutOfRange 0x200#12 0xF033#16 0x1000 ∧ t.mem.read 0xFFE = 0#8 := by decide

/-- M13. -/
theorem test_ldMemVx : let s := (regs 0 7#8 1 8#8).setI 0xFFE#12
    (run s 0xF155).mem.read 0xFFE = 7#8 ∧ (run s 0xF155).mem.read 0xFFF = 8#8 ∧ (run s 0xF155).i = 0#12 ∧
    (run (compatOn s) 0xF155).i = 0xFFE#12 := by decide

/-- M14 and P1. -/
theorem test_ldMemVx_top : (run (State.reset.setI 0xFFE#12) 0xF255).halt =
      halted .memOutOfRange 0x200#12 0xF255#16 0x1000 ∧
    (run ((atPc 0xFFE#12).setI 0xFFE#12) 0xF255).halt = halted .memOutOfRange 0xFFE#12 0xF255#16 0x1000 := by decide

/-- M15. -/
theorem test_ldVxMem :
    let s := { State.reset.setI 0x300#12 with mem := [(0x300, 2#8), (0x301, 5#8), (0x302, 4#8)] }
    (run s 0xF265).reg 0 = 2#8 ∧ (run s 0xF265).reg 1 = 5#8 ∧ (run s 0xF265).reg 2 = 4#8 ∧
    (run s 0xF265).i = 0x303#12 ∧ (run (compatOn s) 0xF265).i = 0x300#12 := by decide

/-- M17. -/
theorem test_ldVxMem_top : let t := run (State.reset.setI 0xFF1#12) 0xFF65
    t.halt = halted .memOutOfRange 0x200#12 0xFF65#16 0x1000 ∧ t.v = State.reset.v := by decide

/-! ## Display -/

/-- D1. -/
theorem test_cls : let t := run { State.reset with fb := Fb.flip State.reset.fb 3 4 } 0x00E0
    t.fb = Fb.clear ∧ t.repaints = 0 ∧ t.pc = 0x202#12 := by decide

/-- D5: wrap at both edges. -/
theorem test_drw_wrap :
    let t := run { regs 0 62#8 1 31#8 with i := 0x210#12, mem := [(0x210, 0xC0#8), (0x211, 0x81#8)] } 0xD012
    t.fb = (((Fb.clear.flip 62 31).flip 63 31).flip 62 0).flip 5 0 ∧ t.reg regF = 0#8 ∧ t.repaints = 1 := by decide

/-- D3 and D8: a collision, and a sprite that runs past memory. -/
theorem test_drw_collision_and_top :
    let s := { regs 0 10#8 1 5#8 with i := 0x300#12, mem := [(0x300, 0x80#8)], fb := Fb.flip Fb.clear 10 5 }
    (run s 0xD011).fb = Fb.clear ∧ (run s 0xD011).reg regF = 1#8 ∧
    (run (State.reset.setI 0xFFF#12) 0xD002).halt = halted .memOutOfRange 0x200#12 0xD002#16 0x1000 := by decide

/-! ## Keys, timers, events -/

/-- K1 and K2. -/
theorem test_key_skips : let s := regs 1 7#8 0 0#8
    (run (s.setKey 7 true) 0xE19E).pc = 0x204#12 ∧ (run s 0xE19E).pc = 0x202#12 ∧ (run s 0xE1A1).pc = 0x204#12 := by decide

/-- K3. -/
theorem test_skp_above : let s := (regs 0 0x10#8 1 0#8).setKey 0 true
    (run s 0xE09E).halt = halted .keyIndexOutOfRange 0x200#12 0xE09E#16 0x10 ∧
    (run (under s fun p => { p with keyIndex := .notPressed }) 0xE09E).pc = 0x202#12 ∧
    (run (under s fun p => { p with keyIndex := .mod16 }) 0xE09E).pc = 0x204#12 := by decide

/-- K4. -/
theorem test_sknp_above : let s := regs 0 0x17#8 1 0#8
    (run s 0xE0A1).halt = halted .keyIndexOutOfRange 0x200#12 0xE0A1#16 0x17 ∧
    (run (under s fun p => { p with keyIndex := .notPressed }) 0xE0A1).pc = 0x204#12 := by decide

/-- K5. -/
theorem test_ldVxDt : (run { State.reset with delay := 0x2A#8 } 0xF307).reg 3 = 0x2A#8 := by decide

/-- K6 to K8. -/
theorem test_ldVxK : let t := run State.reset 0xF50A
    t.waiting = true ∧ t.waitReg = 5#4 ∧ t.pc = 0x202#12 ∧ Next (step t) State.reset = t ∧
    (applyKeyUp t 3).waiting = true := by decide

/-- K9. -/
theorem test_keyDown : let t := applyKeyDown (run State.reset 0xF50A) 0xC
    t.reg 5 = 0xC#8 ∧ t.keyDown 0xC = true ∧ t.waiting = false ∧ t.pc = 0x202#12 := by decide

/-- K12 and K13. -/
theorem test_timers :
    (run (regs 0 10#8 1 0#8) 0xF015).delay = 10#8 ∧ (run (regs 2 5#8 1 0#8) 0xF218).sound = 5#8 := by decide

/-- K14 and K15. -/
theorem test_tick :
    (applyTick { State.reset with delay := 1#8 }).delay = 0#8 ∧ (applyTick State.reset).sound = 0#8 ∧
    (applyTick { State.reset with delay := 3#8, sound := 200#8, waiting := true }).sound = 199#8 := by decide

/-- R276: the rounds of the host go on once no event is listed, and `withFetchWord` puts the STEP first. -/
theorem test_rounds :
    let s := { State.reset with delay := 9#8, waiting := true, events := [.step], host := .rounds .tick [.tick, .step] }
    (s.afterSteps 4).delay = 7#8 ∧ (s.afterSteps 6).delay = 5#8 ∧ s.eventAt 3 = .step ∧ s.eventAt 4 = .tick ∧
    (run s 0x6A42).reg 0xA = 0x42#8 ∧ (run { s with host := .free } 0x6A42).reg 0xA = 0x42#8 := by decide

/-- K16 and P3. -/
theorem test_halted :
    let s := { run State.reset 0x00EE with delay := 5#8, events := [.tick, .keyDown 1, .step] }
    (Next (step (Next (step (Next (step s) s)) s)) s) = { s with events := [] } ∧
    (Next (step { atPc 0x201#12 with mem := [(0x201, 0x12#8)] }) s).halt =
      some { code := .misalignedFetch, pc := 0x201#12, word := none, info := 0x201 } := by decide

/-- The canonical form of memory: unsorted, repeated or background entries are refused. -/
theorem test_memory_wf : Memory.wf [(2, 1#8), (1, 1#8)] = false ∧ Memory.wf [(1, 1#8), (1, 2#8)] = false ∧
    Memory.wf [(0x300, 0#8)] = false ∧ Memory.wf [(0x1000, 1#8)] = false ∧
    (Memory.write [(0x300, 7#8)] 0x300 0#8) = [] ∧ Memory.read [] 0x32 = 0xF0#8 := by decide

/-! ## Witnesses: states and operands that meet the hypotheses of each statement, clause by clause, at the boundaries -/

/-- PC = 0xFFD, the last PC from which Advance(2) fits. -/
def low : State := atPc 0xFFD#12

theorem witness_DecodeOfEncode :
    Instr.wf true (.seReg 1#4 2#4 0xF#4) = true ∧ Instr.wf false (.sneReg 1#4 2#4 0#4) = true := by decide
theorem witness_EncodeOfDecode : decode true 0x5121#16 = .ok (.seReg 1#4 2#4 1#4) := by decide
theorem witness_DecodeFollowsOpcodeTable :
    decode false 0x8008#16 = .error (.unknownOpcode 0x8008#16) ∧ decode false 0x8007#16 = .ok (.subn 0#4 0#4) := by decide
theorem witness_StepRunsDecodedInstruction :
    let even := (atPc 0xFFE#12).withFetchWord 16 0x1200
    let odd := (under low fun p => { p with allowOddPc := true }).withFetchWord 16 0x1200
    (Ready even ∧ Fetchable even ∧ decode even.params.loose59 (wordAtPc even) = .ok (.jp 0x200#12) ∧ even.events = [] ∧
      even.host = .rounds .step []) ∧
    Ready odd ∧ Fetchable odd ∧ decode odd.params.loose59 (wordAtPc odd) = .ok (.jp 0x200#12) := by decide
theorem witness_FatalConditionsHalt :
    let ret := State.reset.withFetchWord 16 0x00EE
    let call := { State.reset.withFetchWord 16 0x2300 with sp := 16 }
    (Ready ret ∧ Fetchable ret ∧ wordAtPc ret = 0x00EE#16 ∧ ret.sp = 0) ∧
    (Ready call ∧ Fetchable call ∧ opField (wordAtPc call) = 2#4 ∧ call.sp = 16) ∧
    Ready State.reset ∧ Fetchable State.reset ∧
    ∀ row ∈ opcodeTable State.reset.params.loose59, row.selects (wordAtPc State.reset) = false := by decide
theorem witness_FaultsArePrecise : ∃ t, step State.reset = .next t ∧ State.reset.halt = none ∧ t.halt ≠ none :=
  ⟨_, rfl, rfl, by decide⟩
theorem witness_HaltedMachineIsFrozen : (run State.reset 0x00EE).halt ≠ none := by decide
theorem witness_WaitGateHoldsExecutor :
    let s := run State.reset 0xF50A
    s.halt = none ∧ s.waiting = true ∧ ∃ t, applyEvent (.keyDown 0xF) s = .next t := ⟨by decide, by decide, _, rfl⟩
theorem witness_OddFetchHalts :
    let top := under (atPc 0xFFF#12) fun p => { p with allowOddPc := true }
    (Ready (atPc 0xFFF#12) ∧ (atPc 0xFFF#12).pc.toNat % 2 = 1 ∧ (atPc 0xFFF#12).params.allowOddPc = false) ∧
    Ready top ∧ top.pc.toNat % 2 = 1 ∧ top.params.allowOddPc = true ∧ top.pc = 0xFFF#12 := by decide
theorem witness_StepKeepsMemoryCanonical :
    let s := (State.reset.setI 0xFFE#12).withFetchWord 16 0xF155
    s.mem.wf = true ∧ ∃ t, step s = .next t := ⟨by decide, _, rfl⟩
theorem witness_StepKeepsLaunchParameters : ∃ t, step State.reset = .next t := ⟨_, rfl⟩
theorem witness_CompatReadByFourInstructions :
    (∀ x y, Instr.subn 0#4 1#4 ≠ .shr x y ∧ Instr.subn 0#4 1#4 ≠ .shl x y) ∧
    (∀ x, Instr.subn 0#4 1#4 ≠ .ldMemVx x ∧ Instr.subn 0#4 1#4 ≠ .ldVxMem x) ∧
    ∃ t, exec (.subn 0#4 1#4) low = .next t :=
  ⟨fun _ _ => ⟨Instr.noConfusion, Instr.noConfusion⟩, fun _ => ⟨Instr.noConfusion, Instr.noConfusion⟩, _, rfl⟩
theorem witness_TickDecrementsBothTimers : State.reset.halt = none ∧ (run State.reset 0x00EE).halt ≠ none := by decide
theorem witness_KeyDownPressesAndEndsWait :
    let s := run State.reset 0xFF0A
    (s.halt = none ∧ s.waiting = true) ∧ State.reset.halt = none ∧ State.reset.waiting = false := by decide
theorem witness_KeyUpReleasesOnly : (run State.reset 0xF50A).halt = none := by decide
theorem witness_EventsAreAppliedInOrder :
    { State.reset with events := [.tick, .step] }.events = .tick :: [.step] ∧ State.reset.events = [] ∧
    State.reset.host = .rounds .step [] ∧ { State.reset with host := .free }.host = .free := by decide
theorem witness_EveryInterleavingIsARun : let s := { State.reset with events := [.tick, .step] }
    1 < s.events.length ∧ s.events.length ≤ 2 ∧ s.host = .rounds .step [] ∧ { s with host := .free }.host = .free := by
  decide

/-- A machine in a wait, whose host delivers a tick and a STEP for ever. -/
def ticking : State := { run State.reset 0xF50A with delay := 3#8, sound := 200#8, host := .rounds .tick [.step] }

theorem ticking_round (n : Nat) : ticking.afterEvents (2 * n) = ticking := by
  induction n with
  | zero => rfl
  | succ n ih =>
    show ((ticking.afterEvents (2 * n)).takeEvent).takeEvent = ticking
    rw [ih]
    decide

theorem ticking_eventAt (n : Nat) : ticking.eventAt (2 * n) = .tick ∧ ticking.eventAt (2 * n + 1) = .step := by
  unfold State.eventAt
  rw [show ticking.afterEvents (2 * n + 1) = (ticking.afterEvents (2 * n)).takeEvent from rfl, ticking_round]
  decide

theorem witness_FairWaitDrainsTimers : ticking.halt = none ∧ ticking.waiting = true ∧ ticking.Fair ∧
    ∀ n k, ticking.eventAt n ≠ .keyDown k := by
  refine ⟨by decide, by decide, fun n => ⟨2 * n, by omega, (ticking_eventAt n).1⟩, fun n k h => ?_⟩
  rcases Nat.even_or_odd' n with ⟨m, rfl | rfl⟩
  · rw [(ticking_eventAt m).1] at h; cases h
  · rw [(ticking_eventAt m).2] at h; cases h
theorem witness_ReturnPopsStack : { State.reset with sp := 1 }.sp ≠ 0 ∧ { State.reset with sp := 16 }.sp ≠ 0 ∧
    State.reset.sp = 0 := by decide
theorem witness_JumpSetsPc : let t := run State.reset 0x1201
    Ready t ∧ (0x201#12).toNat % 2 = 1 ∧ t.params.allowOddPc = false := by decide
theorem witness_CallPushesReturnAddress : let s := { low with sp := 15 }
    s.sp.val < 16 ∧ Fits s 2 := by decide
theorem witness_CallFaults : { State.reset with sp := 16 }.sp = 16 ∧
    { atPc 0xFFE#12 with sp := 15 }.sp ≠ 16 ∧ ¬ Fits { atPc 0xFFE#12 with sp := 15 } 2 := by decide
theorem witness_ImmediateSkips :
    Fits (atPc 0xFFB#12) (if (atPc 0xFFB#12).reg 0 = 0#8 then 4 else 2) ∧
    Fits low (if low.reg 0 ≠ 0#8 then 4 else 2) ∧ Fits low (if low.reg 0 = 1#8 then 4 else 2) ∧
    Fits (atPc 0xFFB#12) (if (atPc 0xFFB#12).reg 0 ≠ 1#8 then 4 else 2) := by decide
theorem witness_RegisterSkips : let s := { regs 1 1#8 2 2#8 with pc := 0xFFB#12 }
    Fits s (if s.reg 1 = s.reg 1 then 4 else 2) ∧ Fits s (if s.reg 1 ≠ s.reg 2 then 4 else 2) := by decide
theorem witness_SkipPastTopHalts :
    skipCondition (atPc 0xFFC#12) (.seReg 1#4 2#4 0#4) = some true ∧ ¬ Fits (atPc 0xFFC#12) 4 ∧
    skipCondition (atPc 0xFFE#12) (.skp 1#4) = some false ∧ ¬ Fits (atPc 0xFFE#12) 2 ∧
    ((atPc 0xFFE#12).reg 1).toNat ≤ 0xF := by decide
theorem witness_JumpWithOffset : let s := regs 0 0xFF#8 1 0#8
    (0xF00#12).toNat + (s.reg 0#4).toNat ≤ 0xFFF ∧ (0xF01#12).toNat + (s.reg 0#4).toNat > 0xFFF := by decide
theorem witness_FallThroughPastTopHalts :
    ¬ IsJump (.ldImm 0#4 1#8) ∧ skipCondition (atPc 0xFFE#12) (.ldImm 0#4 1#8) = none ∧ ¬ Fits (atPc 0xFFE#12) 2 :=
  ⟨id, rfl, by decide⟩
theorem witness_PcAfterEachInstruction :
    (∃ t, exec (.jp 0x201#12) State.reset = .next t ∧ State.reset.halt = none ∧ t.halt = none) ∧
    (∃ t, exec (.jpV0 0xFFF#12) State.reset = .next t ∧ State.reset.halt = none ∧ t.halt = none) ∧
    (∃ t, exec .ret { State.reset with sp := 16 } = .next t ∧ t.halt = none) ∧
    (∃ t, exec (.seImm 0#4 0#8) (atPc 0xFFB#12) = .next t ∧ t.halt = none) ∧
    ∃ t, exec (.ldI 0#12) low = .next t ∧ low.halt = none ∧ t.halt = none :=
  ⟨⟨_, rfl, rfl, rfl⟩, ⟨_, rfl, rfl, rfl⟩, ⟨_, rfl, rfl⟩, ⟨_, rfl, rfl⟩, _, rfl, rfl, rfl⟩
theorem witness_LoadImmediate : Fits low 2 := by decide
theorem witness_AddImmediate : Fits low 2 := by decide
theorem witness_CopyAndLogic : Fits low 2 := by decide
theorem witness_AddRegisters :
    (Fits low 2 ∧ TableOrder low regF) ∧ TableOrder (under low fun p => { p with vfOrder := .draw }) 0xE#4 := by decide
theorem witness_SubtractRegisters :
    (Fits low 2 ∧ TableOrder low regF) ∧ TableOrder (under low fun p => { p with vfOrder := .draw }) 0xE#4 := by decide
theorem witness_Shifts : let s := { regs 0 0x81#8 1 0x7F#8 with pc := 0xFFD#12 }
    Fits s 2 ∧ TableOrder s regF ∧ 0x7F#8 = (if s.params.compat = true then s.reg 0 else s.reg 1) ∧
    0x81#8 = (if (compatOn s).params.compat = true then s.reg 0 else s.reg 1) := by decide
theorem witness_FlagDestinationDraw :
    let s := under { regs 0 1#8 regF 0xFF#8 with pc := 0xFFD#12 } fun p => { p with vfOrder := .draw }
    Fits s 2 ∧ s.params.vfOrder = .draw ∧ addResult (s.reg regF) (s.reg 0#4) = 0#8 ∧
    carryFlag (s.reg regF) (s.reg 0#4) = some 1#8 := by decide
theorem witness_ArithmeticNeverClearsVf : let s := regs 0 0xFF#8 1 1#8
    (∃ t, exec (.addReg 0#4 1#4) s = .next t ∧ t.halt = none) ∧ (∃ t, exec (.subReg regF 1#4) s = .next t ∧ t.halt = none) ∧
    (∃ t, exec (.subn 0#4 1#4) s = .next t ∧ t.halt = none) ∧ (∃ t, exec (.shr 0#4 1#4) s = .next t ∧ t.halt = none) ∧
    (∃ t, exec (.shl 0#4 1#4) s = .next t ∧ t.halt = none) ∧ ∃ t, exec (.addImm 0#4 1#8) s = .next t ∧ t.halt = none :=
  ⟨⟨_, rfl, rfl⟩, ⟨_, rfl, rfl⟩, ⟨_, rfl, rfl⟩, ⟨_, rfl, rfl⟩, ⟨_, rfl, rfl⟩, _, rfl, rfl⟩
theorem witness_RandomByteUnderMask : Fits low 2 ∧ (0x0F#8).getLsbD 7 = false := by decide
theorem witness_LoadAddress : Fits low 2 := by decide
theorem witness_AddToAddress :
    let s := { (regs 0 0xFF#8 1 0#8).setI 0xF00#12 with pc := 0xFFD#12 }
    let above := s.setI 0xF01#12
    (Fits s 2 ∧ s.i.toNat + (s.reg 0).toNat ≤ 0xFFF) ∧ (Fits above 2 ∧ above.params.iAddOverflow = .wrap) ∧
    above.i.toNat + (above.reg 0).toNat > 0xFFF ∧
    (under above fun p => { p with iAddOverflow := .fault }).params.iAddOverflow = .fault := by decide
theorem witness_PointAtGlyph : Fits low 2 := by decide
theorem witness_StoreDecimalDigits : let s := low.setI 0xFFD#12
    Fits s 2 ∧ s.i.toNat + 2 ≤ 0xFFF := by decide
theorem witness_StoreRegisters : let s := low.setI 0xFF0#12
    Fits s 2 ∧ s.i.toNat + (0xF#4).toNat ≤ 0xFFF := by decide
theorem witness_LoadRegisters : let s := low.setI 0xFFF#12
    Fits s 2 ∧ s.i.toNat + (0#4).toNat ≤ 0xFFF := by decide
theorem witness_OutOfRangeAccessHalts :
    (State.reset.setI 0xFFE#12).i.toNat + 2 > 0xFFF ∧ (State.reset.setI 0xFF1#12).i.toNat + (0xF#4).toNat > 0xFFF ∧
    (State.reset.setI 0xFFF#12).i.toNat + (2#4).toNat - 1 > 0xFFF ∧ 2#4 ≠ 0#4 := by decide
theorem witness_StoreSeenByNextFetch :
    let s := (regs 0 0x12#8 1 0#8).setI 0x202#12
    let one := { (regs 0 0x34#8 1 0#8).setI 0x203#12 with mem := [(0x202, 0x12#8)] }
    let bcd := { (regs 0 120#8 1 0#8).setI 0x200#12 with mem := [(0x203, 0xE0#8)] }
    (∃ t, exec (.ldMemVx 1#4) s = .next t ∧ t.halt = none ∧ Ready s ∧ Fetchable t ∧
      storedByte s (.ldMemVx 1#4) 0x202 = some 0x12#8 ∧ storedByte s (.ldMemVx 1#4) 0x203 = some 0#8 ∧
      decode s.params.loose59 (wordOfBytes 0x12#8 0#8) = .ok (.jp 0x200#12)) ∧
    (∃ t, exec (.ldMemVx 0#4) one = .next t ∧ t.halt = none ∧ Ready one ∧ Fetchable t ∧
      storedByte one (.ldMemVx 0#4) 0x202 = none ∧ storedByte one (.ldMemVx 0#4) 0x203 = some 0x34#8 ∧
      decode one.params.loose59 (wordOfBytes (one.mem.read 0x202) 0x34#8) = .ok (.jp 0x234#12)) ∧
    ∃ t, exec (.ldB 0#4) bcd = .next t ∧ t.halt = none ∧ Ready bcd ∧ Fetchable t ∧
      storedByte bcd (.ldB 0#4) 0x202 = some 0#8 ∧ storedByte bcd (.ldB 0#4) 0x203 = none ∧
      decode bcd.params.loose59 (wordOfBytes 0#8 (bcd.mem.read 0x203)) = .ok .cls :=
  ⟨⟨_, rfl, by decide, by decide, by decide, by decide, by decide, by decide⟩,
    ⟨_, rfl, by decide, by decide, by decide, by decide, by decide, by decide⟩,
    _, rfl, by decide, by decide, by decide, by decide, by decide, by decide⟩
theorem witness_ClearDisplay : Fits low 2 := by decide
theorem witness_DrawSprite : (Fits low 2 ∧ SpriteInMemory (low.setI 0xFF1#12) 15#4) ∧
    SpriteInMemory (low.setI 0xFFF#12) 0#4 := by decide
theorem witness_DrawTwiceRestoresDisplay :
    let s := { regs 0 62#8 1 31#8 with i := 0x210#12, mem := [(0x210, 0xC0#8)] }
    s.halt = none ∧ ∃ t, exec (.drw 0#4 1#4 1#4) s = .next t ∧ t.halt = none ∧ t.reg 0#4 = s.reg 0#4 ∧
      t.reg 1#4 = s.reg 1#4 ∧ ∃ u, exec (.drw 0#4 1#4 1#4) { t with pc := s.pc } = .next u :=
  ⟨rfl, _, rfl, by decide, by decide, by decide, _, rfl⟩
theorem witness_KeySkips : let s := { (regs 1 0xF#8 2 0x10#8).setKey 0xF true with pc := 0xFFB#12 }
    (skipCondition s (.skp 1#4) = some true ∧ (s.reg 1).toNat ≤ 0xF ∧ Fits s 4) ∧
    (skipCondition s (.sknp 2#4) = some true ∧ (s.reg 2).toNat > 0xF ∧ s.params.keyIndex = .fault) ∧
    (under s fun p => { p with keyIndex := .mod16 }).params.keyIndex ≠ .fault := by decide
theorem witness_ReadDelayTimer : Fits low 2 := by decide
theorem witness_WaitForKey : low.halt = none ∧ Fits low 2 := by decide
theorem witness_SetTimers : Fits low 2 ∧ ∃ t, exec (.ldStVx 0#4) low = .next t := ⟨by decide, _, rfl⟩
theorem witness_OnlyTwoInstructionsStore : let s := (regs 0 7#8 1 8#8).setI 0xFFE#12
    ∃ t, exec (.ldMemVx 1#4) s = .next t ∧ t.mem.read 0xFFF ≠ s.mem.read 0xFFF := ⟨_, rfl, by decide⟩
theorem witness_OnlyListedRegistersChange : let s := regs 0 0xFF#8 1 1#8
    ∃ t, exec (.addReg 0#4 1#4) s = .next t ∧ t.reg regF ≠ s.reg regF := ⟨_, rfl, by decide⟩
theorem witness_OnlyListedWritersChangeState :
    (∃ t, exec (.ldI 1#12) low = .next t ∧ t.i ≠ low.i) ∧
    (∃ t, exec (.call 0#12) low = .next t ∧ t.sp.val > low.sp.val) ∧
    (∃ t, exec .ret { low with sp := 1 } = .next t ∧ t.sp.val < 1) ∧
    (∃ t, exec .cls { low with fb := Fb.flip Fb.clear 63 31 } = .next t ∧ t.fb ≠ Fb.flip Fb.clear 63 31) ∧
    (∃ t, exec (.ldDtVx 0#4) { low with delay := 1#8 } = .next t ∧ t.delay ≠ 1#8) ∧
    (∃ t, exec (.ldStVx 0#4) { low with sound := 1#8 } = .next t ∧ t.sound ≠ 1#8) ∧
    (∃ t, exec (.ldVxK 0#4) low = .next t ∧ t.waiting ≠ low.waiting) ∧
    ∃ t, exec (.drw 0#4 0#4 0#4) low = .next t ∧ t.repaints ≠ low.repaints :=
  ⟨⟨_, rfl, by decide⟩, ⟨_, rfl, by decide⟩, ⟨_, rfl, by decide⟩, ⟨_, rfl, by decide⟩, ⟨_, rfl, by decide⟩,
    ⟨_, rfl, by decide⟩, ⟨_, rfl, by decide⟩, _, rfl, by decide⟩
theorem witness_ResetLoadsFontAndRom : let l := { Launch.default with rom := [0x12#8, 0x00#8] }
    (0 ≤ 0xFFF ∧ 79 < 80) ∧ (1 < l.rom.length ∧ 0x201 = 0x200 + 1) ∧ (80 ≤ 0x1FF ∧ 0x1FF < 0x200) ∧
    80 ≤ 0xFFF ∧ 0x200 + l.rom.length ≤ 0xFFF := by decide
theorem witness_EndOfRunIsFixedPoint : (State.reset.withFetchWord 16 0x1200).atEndOfRun = true := by decide

end Sys2Proof.Tests
end

section
/-! SUPPORT. Proofs about the schedule of a run (R8, R273, R276): every event is answered, no step disturbs
the schedule, and the events of a run are those its first state lists, then those of its source. -/

namespace Sys2Proof.Machine

/-! ## Every event answers a next state -/

theorem exec_answers (i : Instr) (s : State) : ∃ t, exec i s = .next t :=
  exec_eq_complete i s ▸ complete_answers s i (bodyOf i s)

theorem cycle_answers (s : State) : ∃ t, cycle s = .next t := by
  obtain ⟨f, -, hc⟩ | ⟨w, -, ⟨r, -, hc⟩ | ⟨i, -, hc⟩⟩ := cycle_cases s
  · exact ⟨_, hc⟩
  · exact ⟨_, hc⟩
  · exact hc ▸ exec_answers i s

theorem execStep_answers (s : State) : ∃ t, execStep s = .next t := by
  obtain ⟨-, he⟩ | ⟨-, -, he⟩ := execStep_cases s
  · exact ⟨s, he⟩
  · exact he ▸ cycle_answers s

theorem applyEvent_answers (e : Event) (s : State) : ∃ t, applyEvent e s = .next t := by
  cases e with
  | step => exact execStep_answers s
  | tick => exact ⟨_, rfl⟩
  | keyDown k => exact ⟨_, rfl⟩
  | keyUp k => exact ⟨_, rfl⟩

/-! ## A run follows the schedule of its first state -/

/-- `t` has the schedule of `s`: the same events listed, the same source, the same count. -/
def State.SameSchedule (s t : State) : Prop := t.events = s.events ∧ t.host = s.host ∧ t.arrivals = s.arrivals

theorem State.SameSchedule.nextEvent_eq {s t : State} (h : s.SameSchedule t) : t.nextEvent = s.nextEvent := by
  obtain ⟨he, hh, ha⟩ := h
  simp only [State.nextEvent, he, hh, ha]

theorem State.SameSchedule.takeEvent {s t : State} (h : s.SameSchedule t) : s.takeEvent.SameSchedule t.takeEvent := by
  obtain ⟨he, hh, ha⟩ := h
  simp [State.SameSchedule, State.eventsLeft, State.arrivalsAfter, he, hh, ha]

theorem State.SameSchedule.trans {s t u : State} (h : s.SameSchedule t) (h' : t.SameSchedule u) : s.SameSchedule u := by
  obtain ⟨he, hh, ha⟩ := h
  obtain ⟨he', hh', ha'⟩ := h'
  exact ⟨he'.trans he, hh'.trans hh, ha'.trans ha⟩

/-- A step takes one event off the schedule and does nothing else to it. -/
theorem goesOn_step_sameSchedule (s : State) : s.takeEvent.SameSchedule (s.goesOn (step s)) := by
  obtain ⟨t, ht⟩ := applyEvent_answers s.nextEvent s.takeEvent
  rw [step_eq, ht, State.goesOn_next]
  exact applyEvent_schedule ht

/-- After `n` steps the schedule is what taking `n` events leaves of it. -/
theorem State.afterSteps_sameSchedule (s : State) (n : Nat) : (s.afterEvents n).SameSchedule (s.afterSteps n) := by
  induction n with
  | zero => exact ⟨rfl, rfl, rfl⟩
  | succ n ih =>
    exact ih.takeEvent.trans (goesOn_step_sameSchedule (s.afterSteps n))

/-- Step `n` of a run applies event `n` of the schedule of its first state. -/
theorem step_afterSteps (s : State) (n : Nat) :
    step (s.afterSteps n) = applyEvent (s.eventAt n) (s.afterSteps n).takeEvent := by
  rw [step_eq, (s.afterSteps_sameSchedule n).nextEvent_eq]
  rfl

/-! ## The events of a schedule -/

theorem State.afterEvents_add (s : State) (m n : Nat) : s.afterEvents (m + n) = (s.afterEvents m).afterEvents n := by
  induction n with
  | zero => rfl
  | succ n ih => exact congrArg State.takeEvent ih

theorem State.eventAt_add (s : State) (m n : Nat) : s.eventAt (m + n) = (s.afterEvents m).eventAt n := by
  rw [State.eventAt, s.afterEvents_add, State.eventAt]

@[simp] theorem State.eventAt_zero (s : State) : s.eventAt 0 = s.nextEvent := rfl

theorem State.eventAt_succ (s : State) (n : Nat) : s.eventAt (n + 1) = s.takeEvent.eventAt n := by
  rw [Nat.add_comm, State.eventAt_add]
  rfl

/-- The events listed come first, in their order. -/
theorem State.eventAt_listed (s : State) (n : Nat) (h : n < s.events.length) : s.eventAt n = s.events[n] := by
  induction n generalizing s with
  | zero =>
    obtain ⟨e, rest, hs⟩ := List.exists_cons_of_length_pos h
    simp [nextEvent_listed hs, hs]
  | succ n ih =>
    obtain ⟨e, rest, hs⟩ := List.exists_cons_of_length_pos (Nat.zero_lt_of_lt h)
    have hn : n < s.takeEvent.events.length := by
      rw [takeEvent_listed hs]
      simpa [hs] using h
    rw [State.eventAt_succ, ih _ hn]
    simp [takeEvent_listed hs, hs]

/-- Once the events listed are taken, none is listed and nothing else has changed. -/
theorem State.afterEvents_listed {s : State} {l : List Event} (h : s.events = l) :
    s.afterEvents l.length = { s with events := [] } := by
  induction l generalizing s with
  | nil => cases s; cases h; rfl
  | cons e rest ih =>
    rw [List.length_cons, Nat.add_comm, State.afterEvents_add, State.afterEvents_succ, State.afterEvents_zero,
      takeEvent_listed h, ih rfl]

/-- The events after those listed are the events of the source. -/
theorem State.eventAt_unlisted {s : State} {n : Nat} (h : s.events.length ≤ n) :
    s.eventAt n = { s with events := [] }.eventAt (n - s.events.length) := by
  rw [← State.afterEvents_listed rfl, ← State.eventAt_add, Nat.add_sub_cancel' h]

/-- With none listed, the free source delivers one event of its own after another. -/
theorem State.eventAt_free {s : State} (h : s.events = []) (hs : s.host = .free) (n : Nat) :
    s.eventAt n = Config.hostEvent (s.arrivals + n) := by
  induction n generalizing s with
  | zero => exact nextEvent_free h hs
  | succ n ih =>
    calc s.eventAt (n + 1)
        = { s with arrivals := s.arrivals + 1 }.eventAt n := by rw [State.eventAt_succ, takeEvent_free h hs]
      _ = Config.hostEvent (s.arrivals + 1 + n) := ih (s := { s with arrivals := s.arrivals + 1 }) h hs
      _ = Config.hostEvent (s.arrivals + (n + 1)) := by rw [Nat.add_assoc, Nat.add_comm 1 n]

/-- With none listed, the source's round comes as if it were listed. -/
theorem State.eventAt_rounds {s : State} {e : Event} {rest : List Event} (h : s.events = [])
    (hs : s.host = .rounds e rest) (n : Nat) : s.eventAt n = { s with events := e :: rest }.eventAt n := by
  cases n with
  | zero => exact (nextEvent_rounds h hs).trans (nextEvent_listed rfl).symm
  | succ n => rw [State.eventAt_succ, State.eventAt_succ, takeEvent_rounds h hs, takeEvent_listed rfl]

/-- With none listed, the events from the end of the source's round on are those of the whole run again. -/
theorem State.eventAt_periodic {s : State} {e : Event} {rest : List Event} (h : s.events = [])
    (hs : s.host = .rounds e rest) : Function.Periodic s.eventAt (e :: rest).length := by
  intro n
  have hagain : { s with events := e :: rest }.afterEvents (e :: rest).length = s :=
    (State.afterEvents_listed rfl).trans (by rw [← h])
  rw [State.eventAt_rounds h hs, Nat.add_comm, State.eventAt_add, hagain]

/-- With none listed, the source repeats its round for ever. -/
theorem State.eventAt_rounds_mod {s : State} {e : Event} {rest : List Event} (h : s.events = [])
    (hs : s.host = .rounds e rest) (n : Nat) :
    (e :: rest)[n % (e :: rest).length]? = some (s.eventAt n) := by
  have hlt : n % (e :: rest).length < (e :: rest).length := Nat.mod_lt n (Nat.succ_pos _)
  rw [List.getElem?_eq_getElem hlt, ← (State.eventAt_periodic h hs).map_mod_nat n, State.eventAt_rounds h hs,
    State.eventAt_listed _ _ hlt]

end Sys2Proof.Machine

namespace Sys2Proof.Claims

open Sys2Proof.Machine

/-- Settles O59: the schedule of a run is untouched by its steps but for the event each takes, and its events are those
listed followed by those of the source. -/
theorem everyInterleavingIsARun : Obligations.EveryInterleavingIsARun := by
  intro s n
  refine ⟨step_afterSteps s n, s.eventAt_listed n, fun hn hs => ?_, fun e rest hn hs => ?_⟩ <;>
    rw [State.eventAt_unlisted hn]
  · exact State.eventAt_free (s := { s with events := [] }) rfl hs _
  · exact State.eventAt_rounds_mod (s := { s with events := [] }) rfl hs _

end Sys2Proof.Claims
end

section
/-! SUPPORT. The normal form of an instruction: where it sends PC (or the fault it raises first), and every other
component it leaves behind, as an update of the state before it. What an instruction can change, and what it reads, is
then read off the update. -/

namespace Sys2Proof.Machine

/-! ## The normal form of an instruction (R102, R120) -/

/-- PC after an instruction, before the range check of `SetPC`; or the fault the instruction raises before that check
(R266). -/
def targetOf (i : Instr) (s : State) : Except Fault Nat :=
  match i with
  | .ret => if s.sp.val = 0 then .error .stackUnderflow else .ok s.stack[s.sp.val - 1].toNat
  | .jp nnn => .ok nnn.toNat
  | .call nnn =>
    if s.sp.val = 16 then .error .stackOverflow
    else if s.pc.toNat + 2 > 0xFFF then .error (.pcOutOfRange (s.pc.toNat + 2))
    else .ok nnn.toNat
  | .jpV0 nnn => .ok (nnn.toNat + (s.reg 0#4).toNat)
  | .seImm x nn => .ok (skipTarget (s.reg x == nn))
  | .sneImm x nn => .ok (skipTarget (s.reg x != nn))
  | .seReg x y _ => .ok (skipTarget (s.reg x == s.reg y))
  | .sneReg x y _ => .ok (skipTarget (s.reg x != s.reg y))
  | .skp x => (keyLookup s (s.reg x)).map fun pressed => skipTarget (pressed == true)
  | .sknp x => (keyLookup s (s.reg x)).map fun pressed => skipTarget (pressed == false)
  | .drw _ _ n => if n = 0#4 then .ok next else nextAfter (s.i.toNat + n.toNat - 1)
  | .addI x =>
    if s.i.toNat + (s.reg x).toNat > 0xFFF ∧ s.params.iAddOverflow = .fault then
      .error (.iAddOverflow (s.i.toNat + (s.reg x).toNat))
    else .ok next
  | .ldB _ => nextAfter (s.i.toNat + 2)
  | .ldMemVx x | .ldVxMem x => nextAfter (s.i.toNat + x.toNat)
  | _ => .ok next
where
  /-- the address after the instruction -/
  next : Nat := s.pc.toNat + 2
  /-- that address, once an access of I to `last` is found inside memory -/
  nextAfter (last : Nat) : Except Fault Nat := (checkRange s s.i.toNat last).map fun _ => next
  /-- the address a conditional skip goes to -/
  skipTarget (c : Bool) : Nat := s.pc.toNat + if c = true then 4 else 2

/-- `s` with the registers and the count of free inputs that the two writes of an arithmetic or shift instruction
leave. -/
def flagged (s : State) (x : RegIdx) (r : Byte) (flag : Option Byte) (destFirst : Bool) : State :=
  { s with v := (writeResult s x r flag destFirst).v, draws := (writeResult s x r flag destFirst).draws }

/-- I after the post-modification of FX55 and FX65 (R196). -/
def bulkI (s : State) (x : RegIdx) : Addr := if s.params.compat = true then s.i else bulkNextI s x

/-- The working copy of an instruction that completes, before PC is written: an update of the components the instruction
writes. -/
def workOf (i : Instr) (s : State) : State :=
  match i with
  | .cls => { s with fb := Fb.clear }
  | .ret => { s with sp := ⟨s.sp.val - 1, by omega⟩ }
  | .call _ =>
    { s with
      stack := if h : s.sp.val < 16 then s.stack.set s.sp.val (BitVec.ofNat 12 (s.pc.toNat + 2)) h else s.stack
      sp := if h : s.sp.val < 16 then ⟨s.sp.val + 1, by omega⟩ else s.sp }
  | .ldImm x nn => s.setReg x nn
  | .addImm x nn => s.setReg x (addResult (s.reg x) nn)
  | .ldReg x y => s.setReg x (s.reg y)
  | .orReg x y => s.setReg x (s.reg x ||| s.reg y)
  | .andReg x y => s.setReg x (s.reg x &&& s.reg y)
  | .xorReg x y => s.setReg x (s.reg x ^^^ s.reg y)
  | .addReg x y => flagged s x (addResult (s.reg x) (s.reg y)) (carryFlag (s.reg x) (s.reg y)) true
  | .subReg x y => flagged s x (subResult (s.reg x) (s.reg y)) (noBorrowFlag (s.reg x) (s.reg y)) true
  | .shr x y => flagged s x (shrResult (shiftSource s x y)) (some (shrFlag (shiftSource s x y))) false
  | .subn x y => flagged s x (subResult (s.reg y) (s.reg x)) (noBorrowFlag (s.reg y) (s.reg x)) true
  | .shl x y => flagged s x (shlResult (shiftSource s x y)) (some (shlFlag (shiftSource s x y))) false
  | .ldI nnn => s.setI nnn
  | .rnd x nn => s.countDraw.setReg x (Config.draw8 s.draws &&& nn)
  | .drw x y n => drawn s x y n
  | .ldVxDt x => s.setReg x s.delay
  | .ldVxK x => { s with waiting := true, waitReg := x }
  | .ldDtVx x => { s with delay := s.reg x }
  | .ldStVx x => { s with sound := s.reg x }
  | .addI x => s.setI (BitVec.ofNat 12 (s.i.toNat + (s.reg x).toNat))
  | .ldF x => s.setI (glyphAddr (s.reg x))
  | .ldB x => { s with mem := writeBytes s.mem s.i.toNat (decimalDigit (s.reg x)) 3 }
  | .ldMemVx x =>
    { s with
      mem := writeBytes s.mem s.i.toNat (fun k => s.reg (BitVec.ofNat 4 k)) (x.toNat + 1)
      i := bulkI s x }
  | .ldVxMem x =>
    { s with
      v := (s.setRegs (fun k => s.mem.read (s.i.toNat + k)) (x.toNat + 1)).v
      i := bulkI s x }
  | _ => s

theorem writeResult_eq_flagged (s : State) (x : RegIdx) (r : Byte) (flag : Option Byte) (d : Bool) :
    writeResult s x r flag d = flagged s x r flag d := writeResult_eq s x r flag d

/-- An access that is checked first, then an Advance. -/
theorem checkRange_then_advance (s u : State) (last : Nat) (hpc : u.pc = s.pc) :
    (match checkRange s s.i.toNat last with
      | .error f => .error f
      | .ok () => advance u 2) = (targetOf.nextAfter s last).bind (setPC u) := by
  simp only [targetOf.nextAfter, targetOf.next, advance, hpc]
  cases checkRange s s.i.toNat last <;> rfl

/-- Every body is its target, then `SetPC` of it in the working copy. -/
theorem bodyOf_eq (i : Instr) (s : State) : bodyOf i s = (targetOf i s).bind (setPC (workOf i s)) := by
  cases i
  case ret =>
    by_cases h : s.sp.val = 0
    · simp [bodyOf, targetOf, pop_empty s h, h, Except.bind]
    · simp [bodyOf, targetOf, workOf, pop_entry s h, h, Except.bind]
  case call nnn =>
    by_cases h : s.sp.val = 16
    · simp [bodyOf, callBody, targetOf, h, Except.bind]
    · have hroom : s.sp.val < 16 := by omega
      simp only [bodyOf, callBody, targetOf, workOf, h, hroom, push_room, if_false, dif_pos]
      split <;> rfl
  case skp x | sknp x =>
    simp only [bodyOf, keySkip, targetOf, skipIf_eq]
    cases keyLookup s (s.reg x) <;> rfl
  case addI x =>
    simp only [bodyOf, addIBody, targetOf]
    by_cases hsum : s.i.toNat + (s.reg x).toNat > 0xFFF
    · cases hp : s.params.iAddOverflow
      · have hwrap : BitVec.ofNat 12 ((s.i.toNat + (s.reg x).toNat) % 4096) =
            BitVec.ofNat 12 (s.i.toNat + (s.reg x).toNat) := BitVec.eq_of_toNat_eq (by simp)
        simp only [hsum, hwrap, if_true, reduceCtorEq, and_false, if_false]
        rfl
      · simp only [hsum, if_true, and_self]
        rfl
    · simp only [hsum, false_and, if_false]
      rfl
  case drw x y n =>
    by_cases hn : n = 0#4
    · simp only [bodyOf, drawBody, targetOf, hn, if_true]; rfl
    · simp only [bodyOf, drawBody, targetOf, hn, if_false]
      exact checkRange_then_advance s _ _ rfl
  case ldB x => exact checkRange_then_advance s _ _ rfl
  case ldMemVx x =>
    simp only [bodyOf, storeBody, bulkPostI_eq]
    exact checkRange_then_advance s _ _ rfl
  case ldVxMem x =>
    simp only [bodyOf, loadBody, bulkPostI_eq]
    rw [setRegs_eq]
    exact checkRange_then_advance s _ _ rfl
  case seImm | sneImm | seReg | sneReg => exact skipIf_eq _ _
  case addReg | subReg | subn | shr | shl => simp only [bodyOf, writeResult_eq_flagged]; rfl
  all_goals rfl

/-- What an instruction does: it goes on from its working copy with another PC, or takes a fault in the state before
it. -/
theorem exec_next_cases {i : Instr} {s t : State} (h : exec i s = .next t) :
    (∃ a, t = (workOf i s).putPc a) ∨ ∃ f, t = s.takeFault (some (encode i)) f := by
  rw [exec_next_iff, bodyOf_eq] at h
  obtain hok | ⟨f, -, ht⟩ := h
  · cases htarget : targetOf i s with
    | error f => rw [htarget] at hok; cases hok
    | ok n =>
      rw [htarget] at hok
      exact .inl ⟨_, ((setPC_ok_iff _ _ n).mp hok).2⟩
  · exact .inr ⟨f, ht⟩

/-! ## What an instruction does not read -/

/-- A change of the state that an instruction's target does not see and that its working copy carries along is carried
along by the instruction. -/
theorem exec_comm {i : Instr} {s : State} {f : State → State} (htarget : targetOf i (f s) = targetOf i s)
    (hwork : workOf i (f s) = f (workOf i s)) (hpc : ∀ u a, (f u).putPc a = f (u.putPc a))
    (hfault : ∀ w e, (f s).takeFault w e = f (s.takeFault w e)) : exec i (f s) = mapNext f (exec i s) := by
  simp only [exec_eq_complete, bodyOf_eq, htarget, hwork]
  cases targetOf i s with
  | error e => exact congrArg Host.Outcome.next (hfault _ e)
  | ok n =>
    by_cases hn : n ≤ 0xFFF
    · simp [Except.bind, setPC_fits _ hn, hpc]
    · simp [Except.bind, setPC_overflows _ (Nat.not_le.mp hn), hfault]

/-- `s` with another value of `COMPAT`. -/
def State.withCompat (s : State) (b : Bool) : State := { s with params := { s.params with compat := b } }

theorem targetOf_withCompat (i : Instr) (s : State) (b : Bool) : targetOf i (s.withCompat b) = targetOf i s := by
  cases i <;> rfl

theorem flagged_withCompat (s : State) (x : RegIdx) (r : Byte) (flag : Option Byte) (d b : Bool) :
    flagged (s.withCompat b) x r flag d = (flagged s x r flag d).withCompat b := by
  have hwrite : writeResult (s.withCompat b) x r flag d = (writeResult s x r flag d).withCompat b := by
    unfold writeResult orderedWrites State.withCompat
    split_ifs <;> cases flag <;> rfl
  rw [flagged, hwrite]
  rfl

/-- The instructions that read `COMPAT` (R37, R99). -/
def readsCompat : Instr → Prop
  | .shr _ _ | .shl _ _ | .ldMemVx _ | .ldVxMem _ => True
  | _ => False

theorem workOf_withCompat {i : Instr} (hi : ¬ readsCompat i) (s : State) (b : Bool) :
    workOf i (s.withCompat b) = (workOf i s).withCompat b := by
  cases i
  case shr | shl | ldMemVx | ldVxMem => exact absurd trivial hi
  case addReg | subReg | subn => exact flagged_withCompat s _ _ _ true b
  all_goals rfl

theorem exec_withCompat {i : Instr} (hi : ¬ readsCompat i) (s : State) (b : Bool) :
    exec i (s.withCompat b) = mapNext (·.withCompat b) (exec i s) :=
  exec_comm (f := (·.withCompat b)) (targetOf_withCompat i s b) (workOf_withCompat hi s b) (fun _ _ => rfl)
    fun _ _ => rfl

/-! ## What an instruction does not write -/

/-- The two writes of an arithmetic or shift instruction reach its destination and VF alone. -/
theorem writeResult_reg_of_ne (s : State) {x q : RegIdx} (hx : q ≠ x) (hF : q ≠ regF) (r : Byte) (flag : Option Byte)
    (d : Bool) : (writeResult s x r flag d).reg q = s.reg q := by
  obtain ⟨-, h⟩ | ⟨-, -, b, -, h⟩ := writeResult_cases s x r flag d
  · rw [h]
    by_cases hxF : x = regF
    · rw [hxF, orderedWrites_reg_F, if_neg hF]
    · rw [orderedWrites_reg_ne s hxF, if_neg hx, if_neg hF]
  · simp [h, hx]

/-- A register an instruction may not write (R22) is unchanged in its working copy. -/
theorem workOf_reg_of_not_writesReg {i : Instr} {r : RegIdx} (h : ¬ Claims.writesReg i r) (s : State) :
    (workOf i s).reg r = s.reg r := by
  cases i
  case ldImm | addImm | ldReg | orReg | andReg | xorReg | ldVxDt | rnd | drw =>
    exact (State.setReg_reg _ _ _ r).trans (if_neg h)
  case addReg | subReg | shr | subn | shl =>
    obtain ⟨hx, hF⟩ := not_or.mp h
    exact writeResult_reg_of_ne s hx hF _ _ _
  case ldVxMem x =>
    have hx : ¬ r.toNat < x.toNat + 1 := by rwa [Nat.lt_succ_iff]
    exact (setRegs_reg s _ _ x.isLt r).trans (if_neg hx)
  all_goals rfl

theorem workOf_i_ne {i : Instr} {s : State} (h : (workOf i s).i ≠ s.i) :
    (∃ nnn, i = .ldI nnn) ∨ (∃ x, i = .addI x ∨ i = .ldF x) ∨
      (∃ x, i = .ldMemVx x ∨ i = .ldVxMem x) ∧ s.params.compat = false := by
  cases i
  case ldI nnn => exact .inl ⟨nnn, rfl⟩
  case addI x => exact .inr (.inl ⟨x, .inl rfl⟩)
  case ldF x => exact .inr (.inl ⟨x, .inr rfl⟩)
  case ldMemVx x => exact .inr (.inr ⟨⟨x, .inl rfl⟩, Bool.eq_false_of_not_eq_true fun hc => h (if_pos hc)⟩)
  case ldVxMem x => exact .inr (.inr ⟨⟨x, .inr rfl⟩, Bool.eq_false_of_not_eq_true fun hc => h (if_pos hc)⟩)
  all_goals exact absurd rfl h

theorem workOf_stack_ne {i : Instr} {s : State} (h : (workOf i s).stack ≠ s.stack) : ∃ nnn, i = .call nnn := by
  cases i
  case call nnn => exact ⟨nnn, rfl⟩
  all_goals exact absurd rfl h

theorem workOf_sp_rises {i : Instr} {s : State} (h : (workOf i s).sp.val > s.sp.val) : ∃ nnn, i = .call nnn := by
  cases i
  case call nnn => exact ⟨nnn, rfl⟩
  case ret => exact absurd h (Nat.not_lt.mpr (Nat.sub_le _ 1))
  all_goals exact absurd h (Nat.lt_irrefl _)

theorem workOf_sp_falls {i : Instr} {s : State} (h : (workOf i s).sp.val < s.sp.val) : i = .ret := by
  cases i
  case ret => rfl
  case call nnn =>
    simp only [workOf] at h
    split at h
    · exact absurd h (Nat.not_lt.mpr (Nat.le_succ _))
    · exact absurd h (Nat.lt_irrefl _)
  all_goals exact absurd h (Nat.lt_irrefl _)

theorem workOf_fb_ne {i : Instr} {s : State} (h : (workOf i s).fb ≠ s.fb) : i = .cls ∨ ∃ x y n, i = .drw x y n := by
  cases i
  case cls => exact .inl rfl
  case drw x y n => exact .inr ⟨x, y, n, rfl⟩
  all_goals exact absurd rfl h

theorem workOf_delay_ne {i : Instr} {s : State} (h : (workOf i s).delay ≠ s.delay) : ∃ x, i = .ldDtVx x := by
  cases i
  case ldDtVx x => exact ⟨x, rfl⟩
  all_goals exact absurd rfl h

theorem workOf_sound_ne {i : Instr} {s : State} (h : (workOf i s).sound ≠ s.sound) : ∃ x, i = .ldStVx x := by
  cases i
  case ldStVx x => exact ⟨x, rfl⟩
  all_goals exact absurd rfl h

theorem workOf_gate_ne {i : Instr} {s : State}
    (h : (workOf i s).waiting ≠ s.waiting ∨ (workOf i s).waitReg ≠ s.waitReg) : ∃ x, i = .ldVxK x := by
  cases i
  case ldVxK x => exact ⟨x, rfl⟩
  all_goals exact h.elim (absurd rfl) (absurd rfl)

theorem workOf_repaints_ne {i : Instr} {s : State} (h : (workOf i s).repaints ≠ s.repaints) :
    ∃ x y n, i = .drw x y n := by
  cases i
  case drw x y n => exact ⟨x, y, n, rfl⟩
  all_goals exact absurd rfl h

/-- No instruction writes a key or a launch parameter, whether or not it takes a fault (R34, R37). -/
theorem exec_keeps {i : Instr} {s t : State} (h : exec i s = .next t) : t.key = s.key ∧ t.params = s.params := by
  obtain hok | ⟨f, -, rfl⟩ := (exec_next_iff i s t).mp h
  · obtain ⟨-, hkey, hparams, -⟩ := bodyOf_ok_keeps hok
    exact ⟨hkey, hparams⟩
  · exact ⟨rfl, rfl⟩

/-! ## The events, case by case (R272 to R279) -/

@[simp] theorem applyEvent_step (s : State) : applyEvent .step s = execStep s := rfl
@[simp] theorem applyEvent_tick (s : State) : applyEvent .tick s = .next (applyTick s) := rfl
@[simp] theorem applyEvent_keyDown (k : KeyCode) (s : State) :
    applyEvent (.keyDown k) s = .next (applyKeyDown s k) := rfl
@[simp] theorem applyEvent_keyUp (k : KeyCode) (s : State) : applyEvent (.keyUp k) s = .next (applyKeyUp s k) := rfl

/-- The gate holds the executor (R279). -/
theorem execStep_of_waiting {s : State} (hw : s.waiting = true) : execStep s = .next s := by
  obtain ⟨-, h⟩ | ⟨-, hopen, -⟩ := execStep_cases s
  · exact h
  · rw [hw] at hopen; cases hopen

theorem applyTick_of_running {s : State} (hh : s.halt = none) :
    applyTick s = { s with delay := decrement s.delay, sound := decrement s.sound } := by
  simp [applyTick, hh]

theorem applyKeyDown_of_waiting {s : State} (hh : s.halt = none) (hw : s.waiting = true) (k : KeyCode) :
    applyKeyDown s k = releaseGate (s.setKey k true) k := by
  simp [applyKeyDown, hh, hw]

theorem applyKeyUp_of_running {s : State} (hh : s.halt = none) (k : KeyCode) :
    applyKeyUp s k = s.setKey k false := by
  simp [applyKeyUp, hh]

/-! ## No step writes the launch parameters (R37) -/

theorem cycle_params {s t : State} (h : cycle s = .next t) : t.params = s.params := by
  obtain ⟨f, -, hc⟩ | ⟨w, -, ⟨r, -, hc⟩ | ⟨i, -, hc⟩⟩ := cycle_cases s
  · rw [hc] at h; cases h; rfl
  · rw [hc] at h; cases h; rfl
  · exact (exec_keeps (hc ▸ h)).2

theorem execStep_params {s t : State} (h : execStep s = .next t) : t.params = s.params := by
  obtain ⟨-, he⟩ | ⟨-, -, he⟩ := execStep_cases s
  · rw [he] at h; cases h; rfl
  · exact cycle_params (he ▸ h)

theorem applyEvent_params {e : Event} {s t : State} (h : applyEvent e s = .next t) : t.params = s.params := by
  cases e with
  | step => exact execStep_params h
  | tick => cases h; unfold applyTick; split <;> rfl
  | keyDown k => cases h; unfold applyKeyDown; split_ifs <;> rfl
  | keyUp k => cases h; unfold applyKeyUp; split <;> rfl

/-! ## The default launch (R300, R301) -/

/-- The default launch puts at every address what an unlisted address reads as (log 3, log 4). -/
theorem Launch.default_byteAt (a : Nat) : Launch.default.byteAt a = background a := by
  have hlen : Sys2Proof.Machine.font.length = 80 := by decide
  unfold Launch.byteAt background
  by_cases ha : a < 80
  · rw [dif_pos ha, List.getD_eq_getElem _ _ (hlen ▸ ha)]
    simp [Launch.default]
  · rw [dif_neg ha, List.getD_eq_default _ _ (by omega)]
    simp [Launch.default]

theorem Launch.default_memory : Launch.default.memory = [] :=
  List.filterMap_eq_nil_iff.mpr fun a _ => if_pos (Launch.default_byteAt a)

end Sys2Proof.Machine

namespace Sys2Proof.Claims

open Sys2Proof.Machine

/-- Settles O9: in a wait a STEP is the identity, a tick and a key-up leave the gate alone, and a key-down opens it. -/
theorem waitGateHoldsExecutor : Obligations.WaitGateHoldsExecutor := by
  intro s hh hw
  refine ⟨execStep_of_waiting hw, fun e t ht => ?_⟩
  cases e with
  | step =>
    rw [applyEvent_step, execStep_of_waiting hw] at ht
    cases ht
    simp [hw]
  | tick =>
    rw [applyEvent_tick, applyTick_of_running hh] at ht
    cases ht
    simp [hw]
  | keyDown k =>
    rw [applyEvent_keyDown, applyKeyDown_of_waiting hh hw] at ht
    cases ht
    simp [releaseGate]
  | keyUp k =>
    rw [applyEvent_keyUp, applyKeyUp_of_running hh] at ht
    cases ht
    simp [hw]

/-- Settles O13: no event writes the parameters or the source of events, and taking an event off the schedule writes
neither. -/
theorem stepKeepsLaunchParameters : Obligations.StepKeepsLaunchParameters := by
  intro s t h
  have happly : applyEvent s.nextEvent s.takeEvent = .next t := h
  obtain ⟨-, hhost, -⟩ := applyEvent_schedule happly
  exact ⟨applyEvent_params (s := s.takeEvent) happly, hhost⟩

/-- Settles O14: the target of an instruction does not read `COMPAT`, and its working copy reads it only in the four. -/
theorem compatReadByFourInstructions : Obligations.CompatReadByFourInstructions := by
  intro i s b hshift hbulk t h
  have hi : ¬ readsCompat i := by
    cases i
    case shr x y => exact absurd rfl (hshift x y).1
    case shl x y => exact absurd rfl (hshift x y).2
    case ldMemVx x => exact absurd rfl (hbulk x).1
    case ldVxMem x => exact absurd rfl (hbulk x).2
    all_goals exact id
  have hcomm := exec_withCompat hi s b
  rwa [h] at hcomm

/-- Settles O54: a fault changes no register, and the working copy only those of R22. -/
theorem onlyListedRegistersChange : Obligations.OnlyListedRegistersChange := by
  intro s t i r h hne
  by_contra hr
  obtain ⟨a, rfl⟩ | ⟨f, rfl⟩ := exec_next_cases h
  · exact hne (workOf_reg_of_not_writesReg hr s)
  · exact hne rfl

/-- Settles O55: a fault changes none of these components, and the working copy each only by its writers. -/
theorem onlyListedWritersChangeState : Obligations.OnlyListedWritersChangeState := by
  intro s t i h
  obtain ⟨hkey, -⟩ := exec_keeps h
  obtain ⟨a, rfl⟩ | ⟨f, rfl⟩ := exec_next_cases h
  · exact ⟨workOf_i_ne, fun hstack => hstack.elim workOf_stack_ne workOf_sp_rises, workOf_sp_falls, workOf_fb_ne,
      workOf_delay_ne, workOf_sound_ne, workOf_gate_ne, hkey, workOf_repaints_ne⟩
  · simp

/-- Settles O56: the default launch fills memory with the background, and every other component at reset is that of
`State.reset`. -/
theorem resetValues : Obligations.ResetValues := by
  refine ⟨by rw [State.resetWith, Launch.default_memory]; rfl, rfl, fun l => ⟨_, rfl, ?_⟩⟩
  refine ⟨fun r => ?_, rfl, rfl, rfl, rfl, rfl, rfl, Fb.clear_cell, fun k => ?_, rfl, rfl, rfl, rfl, rfl, ?_⟩
  · simp [State.reg, State.resetWith, State.reset]
  · simp [State.keyDown, State.resetWith, State.reset]
  · rw [State.resetWith_mem]
    exact l.memory_wf

end Sys2Proof.Claims
end

section
/-! SUPPORT. Proofs about memory (20_memory.md): which bytes an instruction stores and that they lie inside the address
space, what a step does to memory, the fetch after a store, and the memory reset leaves. -/

namespace Sys2Proof.Machine

/-! ## What an instruction answers, with its target -/

/-- An instruction that completes has a target inside the address space and goes on there from its working copy. -/
theorem exec_next_target {i : Instr} {s t : State} (h : exec i s = .next t) :
    (∃ n, targetOf i s = .ok n ∧ n ≤ 0xFFF ∧ t = (workOf i s).putPc (BitVec.ofNat 12 n)) ∨
      ∃ f, t = s.takeFault (some (encode i)) f := by
  rw [exec_next_iff, bodyOf_eq] at h
  obtain hok | ⟨f, -, ht⟩ := h
  · cases htarget : targetOf i s with
    | error f => rw [htarget] at hok; cases hok
    | ok n =>
      rw [htarget] at hok
      exact .inl ⟨n, rfl, (setPC_ok_iff _ _ n).mp hok⟩
  · exact .inr ⟨f, ht⟩

/-- An instruction that raises before `SetPC` takes that fault. -/
theorem exec_of_target_error {i : Instr} {s : State} {f : Fault} (h : targetOf i s = .error f) :
    exec i s = .next (s.takeFault (some (encode i)) f) := by
  rw [exec_eq_complete, bodyOf_eq, h]
  rfl

theorem nextAfter_ok {s : State} {last n : Nat} (h : targetOf.nextAfter s last = .ok n) :
    last ≤ 0xFFF ∧ n = s.pc.toNat + 2 := by
  unfold targetOf.nextAfter at h
  by_cases hlast : last ≤ 0xFFF
  · rw [checkRange_inside s hlast] at h
    cases h
    exact ⟨hlast, rfl⟩
  · rw [checkRange_outside s (Nat.not_le.mp hlast)] at h
    cases h

theorem nextAfter_outside (s : State) {last : Nat} (h : last > 0xFFF) :
    targetOf.nextAfter s last =
      .error (.memOutOfRange (if s.params.memFaultInfo = .firstAbove then 0x1000 else last)) := by
  rw [targetOf.nextAfter, checkRange_outside s h, outOfRangeAddr_eq]
  rfl

/-! ## The bytes an instruction stores (R61, R193, R194) -/

/-- How many bytes an instruction stores, from I on. -/
def storeCount : Instr → Nat
  | .ldB _ => 3
  | .ldMemVx x => x.toNat + 1
  | _ => 0

/-- The byte an instruction stores at I + k. -/
def storeValue (s : State) : Instr → Nat → Byte
  | .ldB x, k => decimalDigit (s.reg x) k
  | .ldMemVx _, k => s.reg (BitVec.ofNat 4 k)
  | _, _ => 0#8

theorem workOf_mem (i : Instr) (s : State) :
    (workOf i s).mem = writeBytes s.mem s.i.toNat (storeValue s i) (storeCount i) := by
  cases i <;> rfl

/-- An instruction that gets to `SetPC` has found all it stores inside memory (R63). -/
theorem stores_inside_of_target {i : Instr} {s : State} {n : Nat} (h : targetOf i s = .ok n) :
    s.i.toNat + storeCount i ≤ 0x1000 := by
  cases i
  case ldB | ldMemVx =>
    obtain ⟨hlast, -⟩ := nextAfter_ok h
    exact Nat.succ_le_succ hlast
  all_goals exact s.i.isLt.le

/-- What an instruction does to memory: nothing, or its stores, all of them inside the address space. -/
theorem exec_mem {i : Instr} {s t : State} (h : exec i s = .next t) :
    t.mem = s.mem ∨ s.i.toNat + storeCount i ≤ 0x1000 ∧
      t.mem = writeBytes s.mem s.i.toNat (storeValue s i) (storeCount i) := by
  obtain ⟨n, htarget, -, rfl⟩ | ⟨f, rfl⟩ := exec_next_target h
  · exact .inr ⟨stores_inside_of_target htarget, workOf_mem i s⟩
  · exact .inl rfl

theorem exec_mem_wf {i : Instr} {s t : State} (hs : s.mem.wf = true) (h : exec i s = .next t) : t.mem.wf = true := by
  obtain hmem | ⟨hin, hmem⟩ := exec_mem h
  · rwa [hmem]
  · rw [hmem]
    exact writeBytes_wf hs _ _ _ hin

/-- Only FX33 and FX55 store. -/
theorem stores_cases {i : Instr} (h : 0 < storeCount i) : ∃ x, i = .ldB x ∨ i = .ldMemVx x := by
  cases i
  case ldB x => exact ⟨x, .inl rfl⟩
  case ldMemVx x => exact ⟨x, .inr rfl⟩
  all_goals exact absurd h (Nat.lt_irrefl 0)

/-! ## What an event does to memory -/

/-- An event leaves memory alone, or executes an instruction. -/
theorem applyEvent_mem {e : Event} {s t : State} (h : applyEvent e s = .next t) :
    t.mem = s.mem ∨ ∃ i, exec i s = .next t := by
  cases e with
  | step =>
    rw [applyEvent_step] at h
    obtain ⟨-, he⟩ | ⟨-, -, he⟩ := execStep_cases s
    · rw [he] at h; cases h; exact .inl rfl
    · rw [he] at h
      obtain ⟨f, -, hc⟩ | ⟨w, -, ⟨r, -, hc⟩ | ⟨i, -, hc⟩⟩ := cycle_cases s
      · rw [hc] at h; cases h; exact .inl rfl
      · rw [hc] at h; cases h; exact .inl rfl
      · exact .inr ⟨i, hc ▸ h⟩
  | tick => cases h; unfold applyTick; split <;> exact .inl rfl
  | keyDown k => cases h; unfold applyKeyDown; split_ifs <;> exact .inl rfl
  | keyUp k => cases h; unfold applyKeyUp; split <;> exact .inl rfl

/-! ## The fetch after a store (R77) -/

/-- The byte stored at an address, by the count and the values of the stores. -/
theorem storedByte_eq (s : State) (i : Instr) (a : Nat) :
    Claims.storedByte s i a =
      if s.i.toNat ≤ a ∧ a < s.i.toNat + storeCount i then some (storeValue s i (a - s.i.toNat)) else none := by
  cases i
  case ldB x =>
    by_cases hin : s.i.toNat ≤ a ∧ a < s.i.toNat + 3
    · obtain ⟨k, rfl⟩ := Nat.exists_eq_add_of_le hin.1
      have hk : k < 3 := by omega
      interval_cases k <;> simp [Claims.storedByte, storeCount, storeValue, decimalDigit]
    · have h0 : a ≠ s.i.toNat := by omega
      have h1 : a ≠ s.i.toNat + 1 := by omega
      have h2 : a ≠ s.i.toNat + 2 := by omega
      rw [storeCount, if_neg hin]
      simp [Claims.storedByte, h0, h1, h2]
  case ldMemVx x =>
    have hlast : a < s.i.toNat + (x.toNat + 1) ↔ a ≤ s.i.toNat + x.toNat := Nat.lt_succ_iff
    simp only [Claims.storedByte, storeCount, storeValue, hlast]
  all_goals exact (if_neg fun hin => absurd hin.2 (Nat.not_lt.mpr hin.1)).symm

/-- A byte of memory after the stores of an instruction. -/
theorem workOf_mem_read (i : Instr) (s : State) (a : Nat) :
    (workOf i s).mem.read a = (Claims.storedByte s i a).getD (s.mem.read a) := by
  rw [workOf_mem, read_writeBytes, storedByte_eq]
  split <;> rfl

/-- A machine ready to execute runs the instruction its word at PC decodes to (R102). -/
theorem step_of_decode {s : State} {i : Instr} (hready : Claims.Ready s) (hfetch : Claims.Fetchable s)
    (hd : decode s.params.loose59 (Claims.wordAtPc s) = .ok i) : step s = exec i s.takeEvent := by
  obtain ⟨hnext, hhalt, hwait⟩ := hready
  have hcycle : execStep s.takeEvent = cycle s.takeEvent := by simp [execStep, hhalt, hwait]
  have hdecode : decode s.takeEvent.params.loose59
      (wordOfBytes (s.takeEvent.mem.read s.takeEvent.pc.toNat) (s.takeEvent.mem.read (s.takeEvent.pc.toNat + 1))) =
      .ok i := hd
  rw [step_eq, hnext, applyEvent_step, hcycle, cycle, fetch_ok s.takeEvent hfetch]
  simp only [hdecode]

/-- FX33 and FX55 go on to the next instruction and touch neither the wait gate nor the schedule. -/
theorem exec_store_ready {i : Instr} {s t : State} (hi : ∃ x, i = .ldB x ∨ i = .ldMemVx x) (h : exec i s = .next t)
    (hhalt : t.halt = none) (hready : Claims.Ready s) :
    Claims.Ready t ∧ t.pc.toNat = s.pc.toNat + 2 ∧ t.mem = (workOf i s).mem := by
  obtain ⟨n, htarget, hn, rfl⟩ | ⟨f, rfl⟩ := exec_next_target h
  · obtain ⟨hnext, -, hwait⟩ := hready
    have hpc : n = s.pc.toNat + 2 := by
      obtain ⟨x, rfl | rfl⟩ := hi
      · exact (nextAfter_ok htarget).2
      · exact (nextAfter_ok htarget).2
    have hkeeps : s.SameSchedule (workOf i s) ∧ (workOf i s).waiting = s.waiting := by
      obtain ⟨x, rfl | rfl⟩ := hi <;> exact ⟨⟨rfl, rfl, rfl⟩, rfl⟩
    obtain ⟨hschedule, hgate⟩ := hkeeps
    exact ⟨⟨hschedule.nextEvent_eq.trans hnext, hhalt, hgate.trans hwait⟩, (toNat_ofNat_pc hn).trans hpc, rfl⟩
  · cases hhalt

/-! ## The memory reset leaves (R69, R300 to R302) -/

theorem Launch.byteAt_font (l : Launch) {a : Nat} (h : a < 80) : l.byteAt a = l.font[a] := by
  simp [Launch.byteAt, h]

theorem Launch.byteAt_rom (l : Launch) {k : Nat} (h : k < l.rom.length) : l.byteAt (0x200 + k) = l.rom[k] := by
  have hfont : ¬ 0x200 + k < 80 := by omega
  simp [Launch.byteAt, hfont, h]

theorem Launch.byteAt_fill (l : Launch) {a : Nat} (hfont : 80 ≤ a) (hrom : a < 0x200 ∨ 0x200 + l.rom.length ≤ a) :
    l.byteAt a = l.fill a := by
  rw [Launch.byteAt, dif_neg (Nat.not_lt.mpr hfont)]
  obtain hlow | hhigh := hrom
  · rw [if_pos hlow]
  · have hnone : l.rom[a - 0x200]? = none := List.getElem?_eq_none (by omega)
    rw [if_neg (by omega), hnone]

/-- No address of the address space shows a byte of the ROM past its first 3584 (R302). -/
theorem Launch.byteAt_take_rom (l : Launch) {a : Nat} (ha : a < 0x1000) :
    { l with rom := l.rom.take 3584 }.byteAt a = l.byteAt a := by
  have htake : (l.rom.take 3584)[a - 0x200]? = l.rom[a - 0x200]? := List.getElem?_take_of_lt (by omega)
  simp only [Launch.byteAt, htake]

/-- Memory from contents depends on them at the given addresses alone. -/
theorem Memory.ofFn_congr {addrs : List Nat} {f g : Nat → Byte} (h : ∀ a ∈ addrs, f a = g a) :
    Memory.ofFn addrs f = Memory.ofFn addrs g :=
  List.filterMap_congr fun a ha => by rw [h a ha]

theorem Launch.memory_take_rom (l : Launch) : { l with rom := l.rom.take 3584 }.memory = l.memory := by
  unfold Launch.memory
  exact Memory.ofFn_congr fun a ha => l.byteAt_take_rom ((mem_addressSpace a).mp ha)

end Sys2Proof.Machine

namespace Sys2Proof.Claims

open Sys2Proof.Machine

/-- Settles O12: an event changes memory only by executing an instruction, and what an instruction stores lies inside
the address space. -/
theorem stepKeepsMemoryCanonical : Obligations.StepKeepsMemoryCanonical := by
  intro s t hs h
  obtain hmem | ⟨i, hi⟩ := applyEvent_mem (s := s.takeEvent) h
  · rw [hmem]
    exact hs
  · exact exec_mem_wf (s := s.takeEvent) hs hi

/-- Settles O44: the range check of each of the four comes before its `SetPC` and before anything is written. -/
theorem outOfRangeAccessHalts : Obligations.OutOfRangeAccessHalts := by
  intro s i last hlast haccess
  have htarget : targetOf i s = targetOf.nextAfter s last := by
    obtain ⟨x, ⟨rfl, rfl⟩ | ⟨rfl | rfl, rfl⟩⟩ | ⟨x, y, n, rfl, hn, rfl⟩ := haccess
    · rfl
    · rfl
    · rfl
    · exact if_neg hn
  exact exec_of_target_error (htarget.trans (nextAfter_outside s hlast))

/-- Settles O45: after a store the machine is ready at PC + 2, where each byte is the one stored or the one before. -/
theorem storeSeenByNextFetch : Obligations.StoreSeenByNextFetch := by
  intro s t i j hi h hhalt hready hfetch hd
  obtain ⟨hready', hpc, hmem⟩ := exec_store_ready hi h hhalt hready
  apply step_of_decode hready' hfetch
  rw [wordAtPc, hpc, hmem, workOf_mem_read, workOf_mem_read, (exec_keeps h).2]
  exact hd

/-- Settles O53: a byte changes only within the stores of the instruction, which lie inside the address space. -/
theorem onlyTwoInstructionsStore : Obligations.OnlyTwoInstructionsStore := by
  intro s t i a h hne
  obtain hmem | ⟨hin, hmem⟩ := exec_mem h
  · exact absurd (congrArg (·.read a) hmem) hne
  · rw [hmem, read_writeBytes] at hne
    have ⟨hlow, hhigh⟩ : s.i.toNat ≤ a ∧ a < s.i.toNat + storeCount i := by
      by_contra hout
      exact hne (if_neg hout)
    obtain ⟨x, rfl | rfl⟩ := stores_cases (i := i) (by omega)
    · exact ⟨hlow, by omega, x, .inl ⟨rfl, Nat.le_of_lt_succ hhigh⟩⟩
    · exact ⟨hlow, by omega, x, .inr ⟨rfl, Nat.le_of_lt_succ hhigh⟩⟩

/-- Settles O57: memory after reset is read byte by byte from the launch, which shows no ROM byte past the address
space. -/
theorem resetLoadsFontAndRom : Obligations.ResetLoadsFontAndRom := by
  intro l a ha
  have hread : (State.resetWith l).mem.read a = l.byteAt a := by
    rw [State.resetWith_mem, l.memory_read (Nat.lt_succ_of_le ha)]
  simp only [hread]
  refine ⟨fun h => l.byteAt_font h, fun k h hk => ?_, l.byteAt_fill, ?_⟩
  · rw [hk, l.byteAt_rom h]
  · rw [State.resetWith, State.resetWith, l.memory_take_rom]

end Sys2Proof.Claims
end

section
/-! SUPPORT. Proofs about the encoding (30_encoding.md): the decoder and the encoder are inverse to each other, a word
selects the row of the instruction it decodes to and no other, and what a step does with the word at PC. -/

namespace Sys2Proof

/-! ## Decoding an encoded instruction (R92, R95) -/

/-- The check of the low nibble in 5XY0 and 9XY0 (R97), as `Instr.wf` makes it and as the decoder makes it. -/
theorem lowNibble_check_iff (loose : Bool) (n : BitVec 4) : (loose || n == 0#4) = true ↔ n = 0#4 ∨ loose = true := by
  simp [or_comm]

/-- The word of a well-formed instruction decodes to it: its primary opcode, and the low nibble or byte of its group, lead
the decoder to its arm. -/
theorem decode_encode {loose : Bool} {i : Instr} (hwf : i.wf loose = true) : decode loose (encode i) = .ok i := by
  cases i
  case cls | ret => rfl
  case seReg x y n | sneReg x y n =>
    have hlow : n = 0#4 ∨ loose = true := (lowNibble_check_iff loose n).mp hwf
    simp [encode, decode, hlow]
  case ldReg | orReg | andReg | xorReg | addReg | subReg | shr | subn | shl => simp [encode, decode, decodeGroup8]
  case skp | sknp => simp [encode, decode, decodeGroupE]
  case ldVxDt | ldVxK | ldDtVx | ldStVx | addI | ldF | ldB | ldMemVx | ldVxMem => simp [encode, decode, decodeGroupF]
  all_goals simp [encode, decode]

/-! ## Encoding a decoded word (R92, R95) -/

theorem encodeNNN_of_fields {w : Word} {op : BitVec 4} (hop : (opField w).toNat = op.toNat) :
    encodeNNN op (nnnField w) = w :=
  BitVec.eq_of_toNat_eq hop ▸ encodeNNN_fields w

theorem encodeXNN_of_fields {w : Word} {op : BitVec 4} {nn : Byte} (hop : (opField w).toNat = op.toNat)
    (hnn : (nnField w).toNat = nn.toNat) : encodeXNN op (xField w) nn = w :=
  BitVec.eq_of_toNat_eq hop ▸ BitVec.eq_of_toNat_eq hnn ▸ encodeXNN_fields w

theorem encodeXYN_of_fields {w : Word} {op n : BitVec 4} (hop : (opField w).toNat = op.toNat)
    (hn : (nField w).toNat = n.toNat) : encodeXYN op (xField w) (yField w) n = w :=
  BitVec.eq_of_toNat_eq hop ▸ BitVec.eq_of_toNat_eq hn ▸ encodeXYN_fields w

/-- What the decoder may answer for a word: a well-formed instruction that encodes to the word, or the rejection of the
word by name. -/
def Faithful (loose : Bool) (w : Word) : Except Reject Instr → Prop
  | .ok i => encode i = w ∧ i.wf loose = true
  | .error r => r = .unknownOpcode w

theorem decodeGroup8_faithful (loose : Bool) {w : Word} (hop : (opField w).toNat = 0x8) :
    Faithful loose w (decodeGroup8 w) := by
  unfold decodeGroup8
  split
  case h_10 => rfl
  all_goals exact ⟨encodeXYN_of_fields hop ‹_›, rfl⟩

theorem decodeGroupE_faithful (loose : Bool) {w : Word} (hop : (opField w).toNat = 0xE) :
    Faithful loose w (decodeGroupE w) := by
  unfold decodeGroupE
  split
  case h_3 => rfl
  all_goals exact ⟨encodeXNN_of_fields hop ‹_›, rfl⟩

theorem decodeGroupF_faithful (loose : Bool) {w : Word} (hop : (opField w).toNat = 0xF) :
    Faithful loose w (decodeGroupF w) := by
  unfold decodeGroupF
  split
  case h_10 => rfl
  all_goals exact ⟨encodeXNN_of_fields hop ‹_›, rfl⟩

/-- The decoder, arm by arm in the order of the primary opcode (R94). -/
theorem decode_faithful (loose : Bool) (w : Word) : Faithful loose w (decode loose w) := by
  unfold decode
  split
  · split_ifs with hcls hret
    · exact ⟨hcls.symm, rfl⟩
    · exact ⟨hret.symm, rfl⟩
    · rfl
  · exact ⟨encodeNNN_of_fields ‹_›, rfl⟩
  · exact ⟨encodeNNN_of_fields ‹_›, rfl⟩
  · exact ⟨encodeXNN_of_fields ‹_› rfl, rfl⟩
  · exact ⟨encodeXNN_of_fields ‹_› rfl, rfl⟩
  · split_ifs with hlow
    · exact ⟨encodeXYN_of_fields ‹_› rfl, (lowNibble_check_iff loose _).mpr hlow⟩
    · rfl
  · exact ⟨encodeXNN_of_fields ‹_› rfl, rfl⟩
  · exact ⟨encodeXNN_of_fields ‹_› rfl, rfl⟩
  · exact decodeGroup8_faithful loose ‹_›
  · split_ifs with hlow
    · exact ⟨encodeXYN_of_fields ‹_› rfl, (lowNibble_check_iff loose _).mpr hlow⟩
    · rfl
  · exact ⟨encodeNNN_of_fields ‹_›, rfl⟩
  · exact ⟨encodeNNN_of_fields ‹_›, rfl⟩
  · exact ⟨encodeXNN_of_fields ‹_› rfl, rfl⟩
  · exact ⟨encodeXYN_of_fields ‹_› rfl, rfl⟩
  · exact decodeGroupE_faithful loose ‹_›
  · have hlast : (opField w).toNat = 0xF := by
      have hlt := (opField w).isLt
      simp only [imp_false] at *
      omega
    exact decodeGroupF_faithful loose hlast

theorem encode_of_decode {loose : Bool} {w : Word} {i : Instr} (h : decode loose w = .ok i) :
    encode i = w ∧ i.wf loose = true := by
  have hfaithful := decode_faithful loose w
  rwa [h] at hfaithful

/-- The decoder rejects a word by its name (R96). -/
theorem decode_error {loose : Bool} {w : Word} {r : Reject} (h : decode loose w = .error r) :
    r = .unknownOpcode w := by
  have hfaithful := decode_faithful loose w
  rwa [h] at hfaithful

/-! ## The opcode table (R95) -/

theorem mem_opcodeTable_iff (loose : Bool) (row : Row) : row ∈ opcodeTable loose ↔ ∃ i, rowOf loose i = row := by
  constructor
  · simp only [opcodeTable, ← List.map_append]
    intro h
    obtain ⟨i, -, hi⟩ := List.mem_map.mp h
    exact ⟨i, hi⟩
  · rintro ⟨i, rfl⟩
    cases i <;> simp [opcodeTable, rowOf]

open Laws.EncodesInRow in
/-- Every instruction encodes in its row, by its law (Laws/PerInstr.lean). -/
theorem encodesInRow : ∀ i : Instr, Statement i
  | .cls => cls
  | .ret => ret
  | .jp nnn => jp nnn
  | .call nnn => call nnn
  | .seImm x nn => seImm x nn
  | .sneImm x nn => sneImm x nn
  | .seReg x y n => seReg x y n
  | .ldImm x nn => ldImm x nn
  | .addImm x nn => addImm x nn
  | .ldReg x y => ldReg x y
  | .orReg x y => orReg x y
  | .andReg x y => andReg x y
  | .xorReg x y => xorReg x y
  | .addReg x y => addReg x y
  | .subReg x y => subReg x y
  | .shr x y => shr x y
  | .subn x y => subn x y
  | .shl x y => shl x y
  | .sneReg x y n => sneReg x y n
  | .ldI nnn => ldI nnn
  | .jpV0 nnn => jpV0 nnn
  | .rnd x nn => rnd x nn
  | .drw x y n => drw x y n
  | .skp x => skp x
  | .sknp x => sknp x
  | .ldVxDt x => ldVxDt x
  | .ldVxK x => ldVxK x
  | .ldDtVx x => ldDtVx x
  | .ldStVx x => ldStVx x
  | .addI x => addI x
  | .ldF x => ldF x
  | .ldB x => ldB x
  | .ldMemVx x => ldMemVx x
  | .ldVxMem x => ldVxMem x

/-- A word selects the row of the instruction it decodes to. -/
theorem rowOf_selects_of_decode {loose : Bool} {w : Word} {i : Instr} (h : decode loose w = .ok i) :
    (rowOf loose i).selects w = true := by
  obtain ⟨rfl, hwf⟩ := encode_of_decode h
  exact encodesInRow i loose hwf

/-! ## A word that selects a row (R95, R97) -/

theorem Row.selects_iff (r : Row) (w : Word) : r.selects w = true ↔ w &&& r.mask = r.mtch := beq_iff_eq

/-- A field that lies under the mask of a row is, in a word that selects the row, the field of the row's match. -/
theorem Row.field_of_selects {r : Row} {w : Word} {start len : Nat}
    (hmask : r.mask.extractLsb' start len = BitVec.allOnes len) (h : r.selects w = true) :
    w.extractLsb' start len = r.mtch.extractLsb' start len := by
  rw [← (r.selects_iff w).mp h, BitVec.extractLsb'_and, hmask, BitVec.and_allOnes]

theorem Row.opField_of_selects {r : Row} {w : Word} (hmask : opField r.mask = 0xF#4) (h : r.selects w = true) :
    opField w = opField r.mtch := field_of_selects hmask h

theorem Row.nField_of_selects {r : Row} {w : Word} (hmask : nField r.mask = 0xF#4) (h : r.selects w = true) :
    nField w = nField r.mtch := field_of_selects hmask h

theorem Row.nnField_of_selects {r : Row} {w : Word} (hmask : nnField r.mask = 0xFF#8) (h : r.selects w = true) :
    nnField w = nnField r.mtch := field_of_selects hmask h

theorem opField_rowOf_mask (loose : Bool) (i : Instr) : opField (rowOf loose i).mask = 0xF#4 := by
  cases i <;> cases loose <;> simp [rowOf, opField]

/-- A word that selects a row decodes to an instruction of the row. -/
theorem map_rowOf_decode_of_selects {loose : Bool} {i : Instr} {w : Word} (h : (rowOf loose i).selects w = true) :
    (decode loose w).map (rowOf loose) = .ok (rowOf loose i) := by
  have hop := Row.opField_of_selects (opField_rowOf_mask loose i) h
  cases i <;> simp only [rowOf] at h hop ⊢
  case cls | ret =>
    have hw : w = _ := BitVec.and_allOnes.symm.trans ((Row.selects_iff _ w).mp h)
    subst hw
    rfl
  case seReg | sneReg =>
    have hlow : nField w = 0#4 ∨ loose = true := by
      cases loose
      · exact .inl (Row.nField_of_selects rfl h)
      · exact .inr rfl
    rw [decode, hop]
    exact congrArg _ (if_pos hlow)
  case ldReg | orReg | andReg | xorReg | addReg | subReg | shr | subn | shl =>
    rw [decode, hop]
    show (decodeGroup8 w).map _ = _
    rw [decodeGroup8, Row.nField_of_selects rfl h]
    rfl
  case skp | sknp =>
    rw [decode, hop]
    show (decodeGroupE w).map _ = _
    rw [decodeGroupE, Row.nnField_of_selects rfl h]
    rfl
  case ldVxDt | ldVxK | ldDtVx | ldStVx | addI | ldF | ldB | ldMemVx | ldVxMem =>
    rw [decode, hop]
    show (decodeGroupF w).map _ = _
    rw [decodeGroupF, Row.nnField_of_selects rfl h]
    rfl
  all_goals
    rw [decode, hop]
    rfl

namespace Machine

/-! ## The step of a machine that is ready (R90, R102) -/

theorem step_of_ready {s : State} (h : Claims.Ready s) : step s = cycle s.takeEvent := by
  obtain ⟨hnext, hhalt, hwait⟩ := h
  rw [step_eq, hnext, applyEvent_step]
  simp [execStep, hhalt, hwait]

/-- A fault of the fetch is taken with no word (R264). -/
theorem step_of_fetch_error {s : State} {f : Fault} (hready : Claims.Ready s) (hfetch : fetch s = .error f) :
    step s = .next (s.takeEvent.takeFault none f) := by
  have hfetch' : fetch s.takeEvent = .error f := hfetch
  rw [step_of_ready hready, cycle, hfetch']

end Machine

namespace Claims

open Machine

/-- Settles O2: the decoder reads an encoded instruction back, and the two bytes of a word make up the word. -/
theorem decodeOfEncode : Obligations.DecodeOfEncode := by
  intro loose i rest hwf
  have hword := decode_encode hwf
  refine ⟨hword, ?_⟩
  simp only [decodeBytes, wordOfBytes_hi_lo, hword]

/-- Settles O3: every arm of the decoder answers with the fields of the word. -/
theorem encodeOfDecode : Obligations.EncodeOfDecode := fun _ _ _ => encode_of_decode

/-- Settles O4: a word that selects a row decodes to an instruction of that row, so it selects no second row, and a
rejected word selects none. -/
theorem decodeFollowsOpcodeTable : Obligations.DecodeFollowsOpcodeTable := by
  intro loose w
  refine ⟨fun i hi => ⟨rowOf_selects_of_decode hi, (mem_opcodeTable_iff loose _).mpr ⟨i, rfl⟩, ?_⟩, ?_, ?_⟩
  · intro row hrow hsel
    obtain ⟨j, rfl⟩ := (mem_opcodeTable_iff loose row).mp hrow
    have hj := map_rowOf_decode_of_selects hsel
    rw [hi] at hj
    exact (Except.ok.inj hj).symm
  · intro hreject row hrow
    obtain ⟨j, rfl⟩ := (mem_opcodeTable_iff loose row).mp hrow
    by_contra hsel
    have hj := map_rowOf_decode_of_selects (Bool.eq_true_of_not_eq_false hsel)
    rw [hreject] at hj
    cases hj
  · intro hnone
    cases hd : decode loose w with
    | error r => exact congrArg Except.error (decode_error hd)
    | ok i =>
      have hno := hnone _ ((mem_opcodeTable_iff loose _).mpr ⟨i, rfl⟩)
      rw [rowOf_selects_of_decode hd] at hno
      cases hno

/-- Settles O1: the decoder evaluated at each word. -/
theorem decodeSpecWords : Obligations.DecodeSpecWords := by
  unfold Obligations.DecodeSpecWords
  decide

/-- Settles O5: a ready machine runs what its word decodes to, which is well-formed. -/
theorem stepRunsDecodedInstruction : Obligations.StepRunsDecodedInstruction := by
  intro s i hready hfetch hd
  have hstep := step_of_decode hready hfetch hd
  refine ⟨(encode_of_decode hd).2, hstep, fun hevents hhost => ?_⟩
  rw [hstep, takeEvent_steps hevents hhost]

/-- Settles O10: the fetch at an odd PC raises one of two faults, which the step takes. -/
theorem oddFetchHalts : Obligations.OddFetchHalts := by
  intro s hready hodd
  exact ⟨fun hp => step_of_fetch_error hready (fetch_odd s hodd hp),
    fun hp htop => step_of_fetch_error hready (fetch_top s htop hp)⟩

end Claims

end Sys2Proof
end

section
/-! SUPPORT. Proofs about control transfer (40_control_flow.md): where an instruction sends PC, read off its target, and
what it does when the target is, or is not, an address. -/

namespace Sys2Proof.Machine

open Sys2Proof.Claims

/-! ## From the target to the outcome (R102, R120) -/

/-- An instruction whose target is an address goes on there from its working copy. -/
theorem exec_of_target_fits {i : Instr} {s : State} {n : Nat} (h : targetOf i s = .ok n) (hn : n ≤ 0xFFF) :
    exec i s = .next ((workOf i s).putPc (BitVec.ofNat 12 n)) := by
  rw [exec_eq_complete, bodyOf_eq, h]
  exact congrArg (complete s i) (setPC_fits _ hn)

/-- The same for a target that is given as an address. -/
theorem exec_of_target_addr {i : Instr} {s : State} {a : Addr} (h : targetOf i s = .ok a.toNat) :
    exec i s = .next ((workOf i s).putPc a) := by
  rw [exec_of_target_fits h (Nat.le_of_lt_succ a.isLt), BitVec.ofNat_toNat, BitVec.setWidth_eq]

/-- An instruction whose target is above 0xFFF halts with PcOutOfRange (the spec's decision D11). -/
theorem halts_of_target_overflows {i : Instr} {s : State} {n : Nat} (h : targetOf i s = .ok n) (hn : n > 0xFFF) :
    Halts i s .pcOutOfRange n := by
  rw [Halts, exec_eq_complete, bodyOf_eq, h]
  exact congrArg (complete s i) (setPC_overflows _ hn)

/-- An instruction that writes PC alone and whose target is an address changes nothing but PC. -/
theorem exec_onlyPc {i : Instr} {s : State} {n : Nat} (hwork : workOf i s = s) (h : targetOf i s = .ok n)
    (hn : n ≤ 0xFFF) : ∃ t, exec i s = .next t ∧ OnlyPc s t ∧ t.pc.toNat = n := by
  rw [exec_of_target_fits h hn, hwork]
  exact ⟨_, rfl, ⟨rfl, fun _ _ => rfl⟩, toNat_ofNat_pc hn⟩

/-- An instruction that completes without a fault has gone to its target. -/
theorem target_of_completes {i : Instr} {s t : State} (h : exec i s = .next t) (hhalt : t.halt = none) :
    targetOf i s = .ok t.pc.toNat := by
  obtain ⟨n, htarget, hn, rfl⟩ | ⟨f, rfl⟩ := exec_next_target h
  · exact htarget.trans (congrArg Except.ok (toNat_ofNat_pc hn).symm)
  · cases hhalt

/-! ## Targets of the jumps (R122, R124) -/

theorem targetOf_ret_entry {s : State} (h : s.sp.val ≠ 0) : targetOf .ret s = .ok s.stack[s.sp.val - 1].toNat :=
  if_neg h

theorem targetOf_ret_empty {s : State} (h : s.sp.val = 0) : targetOf .ret s = .error .stackUnderflow := if_pos h

theorem targetOf_call_full {s : State} (nnn : Addr) (h : s.sp.val = 16) :
    targetOf (.call nnn) s = .error .stackOverflow := if_pos h

theorem targetOf_call_past_top {s : State} (nnn : Addr) (h : s.sp.val ≠ 16) (hpc : ¬ Fits s 2) :
    targetOf (.call nnn) s = .error (.pcOutOfRange (s.pc.toNat + 2)) :=
  (if_neg h).trans (if_pos (Nat.not_le.mp hpc))

theorem targetOf_call_room {s : State} (nnn : Addr) (h : s.sp.val ≠ 16) (hpc : Fits s 2) :
    targetOf (.call nnn) s = .ok nnn.toNat :=
  (if_neg h).trans (if_neg (Nat.not_lt.mpr hpc))

/-! ## Targets of the conditional skips (R121, R125 to R128, R240 to R242) -/

/-- A skip that tests a condition `p` and writes PC alone goes on by 4 or by 2. -/
theorem exec_skip {i : Instr} {s : State} {c : Bool} {p : Prop} [Decidable p]
    (htarget : targetOf i s = .ok (targetOf.skipTarget s c)) (hwork : workOf i s = s) (hc : c = true ↔ p)
    (hfits : Fits s (if p then 4 else 2)) :
    ∃ t, exec i s = .next t ∧ OnlyPc s t ∧ t.pc.toNat = s.pc.toNat + (if p then 4 else 2) := by
  have hskip : targetOf.skipTarget s c = s.pc.toNat + (if p then 4 else 2) :=
    congrArg (s.pc.toNat + ·) (if_congr hc rfl rfl)
  exact exec_onlyPc hwork (hskip ▸ htarget) hfits

/-- The key look-up of a key skip answers the key state of the statement's condition, or VX is above 0xF and the look-up
faults (the spec's decision D17). -/
theorem keyLookup_cases (s : State) (x : RegIdx) :
    keyLookup s (s.reg x) = .ok (skipCondition.pressed s x) ∨
      ((s.reg x).toNat > 0xF ∧ s.params.keyIndex = .fault) ∧
        keyLookup s (s.reg x) = .error (.keyIndexOutOfRange (s.reg x)) := by
  have hkey : s.keyDown (lowNibble (s.reg x)) = s.key[(s.reg x).toNat % 16]'(Nat.mod_lt _ (by decide)) := by
    simp only [State.keyDown, lowNibble_toNat]
  by_cases hcode : (s.reg x).toNat ≤ 0xF
  · left
    rw [keyLookup_code s hcode, hkey, skipCondition.pressed, if_neg fun h => Nat.not_lt.mpr hcode h.1]
  · have habove := Nat.not_le.mp hcode
    cases hp : s.params.keyIndex with
    | fault => exact .inr ⟨⟨habove, rfl⟩, keyLookup_above_fault s habove hp⟩
    | mod16 => left; simp [keyLookup_above_mod16 s habove hp, hkey, skipCondition.pressed, hp]
    | notPressed => left; simp [keyLookup_above_notPressed s habove hp, skipCondition.pressed, habove, hp]

/-- A conditional skip goes on by 4 or by 2, unless it is a key skip whose look-up faults first (R266). -/
theorem targetOf_of_skip {i : Instr} {s : State} {c : Bool} (h : skipCondition s i = some c) :
    targetOf i s = .ok (s.pc.toNat + if c = true then 4 else 2) ∨
      ∃ x, (i = .skp x ∨ i = .sknp x) ∧ ((s.reg x).toNat > 0xF ∧ s.params.keyIndex = .fault) ∧
        targetOf i s = .error (.keyIndexOutOfRange (s.reg x)) := by
  cases i
  case seImm | sneImm | seReg | sneReg => cases h; left; simp [targetOf, targetOf.skipTarget]
  case skp x | sknp x =>
    cases h
    obtain hk | ⟨hfault, hk⟩ := keyLookup_cases s x
    · left; simp [targetOf, targetOf.skipTarget, hk, Except.map]
    · exact .inr ⟨x, by simp, hfault, by simp [targetOf, hk, Except.map]⟩
  all_goals cases h

/-! ## Targets of the other instructions (R120, R266) -/

/-- The data access of an instruction that falls through runs past memory (R193, R194, R195, R222). -/
def AccessPastTop (s : State) (i : Instr) : Prop :=
  (∃ x, i = .ldB x ∧ s.i.toNat + 2 > 0xFFF ∨ (i = .ldMemVx x ∨ i = .ldVxMem x) ∧ s.i.toNat + x.toNat > 0xFFF) ∨
    ∃ x y n, i = .drw x y n ∧ s.i.toNat + n.toNat > 0x1000

/-- The target after an access is the next instruction, unless the access runs past memory. -/
theorem nextAfter_cases (s : State) (last : Nat) :
    targetOf.nextAfter s last = .ok (s.pc.toNat + 2) ∨
      last > 0xFFF ∧ ∃ a, targetOf.nextAfter s last = .error (.memOutOfRange a) := by
  by_cases hlast : last ≤ 0xFFF
  · left
    rw [targetOf.nextAfter, checkRange_inside s hlast]
    rfl
  · exact .inr ⟨Nat.not_le.mp hlast, _, nextAfter_outside s (Nat.not_le.mp hlast)⟩

/-- An instruction that is no jump and no skip goes on to the next one, unless its own check fails first (R266). -/
theorem targetOf_of_fallThrough {i : Instr} {s : State} (hjump : ¬ IsJump i) (hskip : skipCondition s i = none) :
    targetOf i s = .ok (s.pc.toNat + 2) ∨
      (AccessPastTop s i ∧ ∃ a, targetOf i s = .error (.memOutOfRange a)) ∨
      ∃ x, i = .addI x ∧ s.params.iAddOverflow = .fault ∧ s.i.toNat + (s.reg x).toNat > 0xFFF ∧
        targetOf i s = .error (.iAddOverflow (s.i.toNat + (s.reg x).toNat)) := by
  cases i
  case ret | jp | call | jpV0 => exact absurd trivial hjump
  case seImm | sneImm | seReg | sneReg | skp | sknp => cases hskip
  case addI x =>
    by_cases hfault : s.i.toNat + (s.reg x).toNat > 0xFFF ∧ s.params.iAddOverflow = .fault
    · exact .inr (.inr ⟨x, rfl, hfault.2, hfault.1, if_pos hfault⟩)
    · exact .inl (if_neg hfault)
  case ldB x | ldMemVx x | ldVxMem x =>
    exact (nextAfter_cases s _).imp_right fun ⟨hlast, herror⟩ => .inl ⟨.inl ⟨x, by simpa using hlast⟩, herror⟩
  case drw x y n =>
    by_cases hn : n = 0#4
    · exact .inl (if_pos hn)
    · have htarget : targetOf (.drw x y n) s = targetOf.nextAfter s (s.i.toNat + n.toNat - 1) := if_neg hn
      rw [htarget]
      exact (nextAfter_cases s _).imp_right fun ⟨hlast, herror⟩ => .inl ⟨.inr ⟨x, y, n, rfl, by omega⟩, herror⟩
  all_goals exact .inl rfl

/-- The target of an instruction that is no jump: 4 on for a skip whose condition holds, else 2 on (R121). -/
theorem target_of_not_jump {i : Instr} {s : State} {n : Nat} (hjump : ¬ IsJump i) (h : targetOf i s = .ok n) :
    n = s.pc.toNat + (if skipCondition s i = some true then 4 else 2) := by
  cases hskip : skipCondition s i with
  | none =>
    obtain hok | ⟨-, a, herror⟩ | ⟨x, -, -, -, herror⟩ := targetOf_of_fallThrough hjump hskip
    · rw [hok] at h; cases h; simp
    · rw [herror] at h; cases h
    · rw [herror] at h; cases h
  | some c =>
    obtain hok | ⟨x, -, -, herror⟩ := targetOf_of_skip hskip
    · rw [hok] at h; cases h; simp
    · rw [herror] at h; cases h

end Sys2Proof.Machine

namespace Sys2Proof.Claims

open Sys2Proof.Machine

/-- Settles O19: the target of 00EE is the newest entry, and its working copy has the depth one lower. -/
theorem returnPopsStack : Obligations.ReturnPopsStack := by
  intro s
  refine ⟨rfl, fun h => ?_, fun h => ?_⟩
  · have hsp : s.sp.val ≠ 0 := Fin.val_ne_zero_iff.mpr h
    exact ⟨_, exec_of_target_addr (targetOf_ret_entry hsp), rfl, rfl, rfl, fun _ _ => rfl⟩
  · have hsp : s.sp.val = 0 := congrArg Fin.val h
    exact ⟨_, _, exec_of_target_error (targetOf_ret_empty hsp), rfl, rfl, rfl, rfl⟩

/-- Settles O20: the target of 1NNN is NNN, an address, and at an odd one the next fetch raises. -/
theorem jumpSetsPc : Obligations.JumpSetsPc := by
  intro s nnn
  refine ⟨_, exec_of_target_addr (i := .jp nnn) rfl, rfl, ⟨rfl, fun _ _ => rfl⟩, fun hready hodd hparam => ?_⟩
  exact ⟨_, _, step_of_fetch_error hready (fetch_odd _ hodd hparam), rfl, rfl⟩

/-- Settles O21: with room and a return address inside memory the target of 2NNN is NNN, and its working copy has the
return address at the old depth. -/
theorem callPushesReturnAddress : Obligations.CallPushesReturnAddress := by
  intro s nnn hroom hpc
  refine ⟨_, exec_of_target_addr (targetOf_call_room nnn hroom.ne hpc), rfl, rfl, ?_, ?_, fun k hk hne => ?_,
    fun _ _ => rfl⟩
  · simp [workOf, hroom]
  · simp only [State.putPc_stack, workOf, hroom, dif_pos, Vector.getElem_set_self]
    exact toNat_ofNat_pc hpc
  · simp only [State.putPc_stack, workOf, hroom, dif_pos]
    exact Vector.getElem_set_ne _ _ hne.symm

/-- Settles O22: 2NNN checks the depth, then the return address, before it has a target. -/
theorem callFaults : Obligations.CallFaults := by
  intro s nnn
  refine ⟨fun hfull => ?_, fun hroom hpc => ?_⟩
  · exact exec_of_target_error (targetOf_call_full nnn (congrArg Fin.val hfull))
  · exact exec_of_target_error (targetOf_call_past_top nnn (fun h => hroom (Fin.ext h)) hpc)

/-- Settles O23: both are skips on a comparison of VX with NN. -/
theorem immediateSkips : Obligations.ImmediateSkips := fun _ _ _ =>
  ⟨exec_skip rfl rfl beq_iff_eq, exec_skip rfl rfl bne_iff_ne⟩

/-- Settles O24: both are skips on a comparison of VX with VY, whatever the low nibble. -/
theorem registerSkips : Obligations.RegisterSkips := fun _ _ _ _ =>
  ⟨exec_skip rfl rfl beq_iff_eq, exec_skip rfl rfl bne_iff_ne⟩

/-- Settles O25: a skip whose look-up does not fault has its new PC as target. -/
theorem skipPastTopHalts : Obligations.SkipPastTopHalts := by
  intro s i c hskip hlookup hpc
  obtain htarget | ⟨x, hi, ⟨habove, hfault⟩, -⟩ := targetOf_of_skip hskip
  · exact halts_of_target_overflows htarget (Nat.not_le.mp hpc)
  · obtain hcode | hparam := hlookup x hi
    · exact absurd habove (Nat.not_lt.mpr hcode)
    · exact absurd hfault hparam

/-- Settles O26: the target of BNNN is the integer sum. -/
theorem jumpWithOffset : Obligations.JumpWithOffset := fun _ _ =>
  ⟨exec_onlyPc rfl rfl, halts_of_target_overflows rfl⟩

/-- Settles O27: such an instruction has PC + 2 as target, or its own check fails before it has one. -/
theorem fallThroughPastTopHalts : Obligations.FallThroughPastTopHalts := by
  intro s i hjump hskip hpc
  obtain htarget | ⟨haccess, a, herror⟩ | ⟨x, hi, hparam, hsum, herror⟩ := targetOf_of_fallThrough hjump hskip
  · exact .inl (halts_of_target_overflows htarget (Nat.not_le.mp hpc))
  · exact .inr (.inl ⟨haccess, a, exec_of_target_error herror⟩)
  · exact .inr (.inr ⟨x, hi, hparam, hsum, exec_of_target_error herror⟩)

/-- Settles O28: an instruction that completes has gone to its target. -/
theorem pcAfterEachInstruction : Obligations.PcAfterEachInstruction := by
  intro s t i h _ hhalt
  have htarget := target_of_completes h hhalt
  cases i
  case jp nnn => exact BitVec.eq_of_toNat_eq (Except.ok.inj htarget).symm
  case jpV0 nnn => exact (Except.ok.inj htarget).symm
  case call nnn =>
    by_cases hfull : s.sp.val = 16
    · rw [targetOf_call_full nnn hfull] at htarget; cases htarget
    · by_cases hpc : Fits s 2
      · rw [targetOf_call_room nnn hfull hpc] at htarget
        exact BitVec.eq_of_toNat_eq (Except.ok.inj htarget).symm
      · rw [targetOf_call_past_top nnn hfull hpc] at htarget; cases htarget
  case ret =>
    by_cases hsp : s.sp.val = 0
    · rw [targetOf_ret_empty hsp] at htarget; cases htarget
    · rw [targetOf_ret_entry hsp] at htarget
      exact ⟨by omega, BitVec.eq_of_toNat_eq (Except.ok.inj htarget).symm⟩
  all_goals exact target_of_not_jump id htarget

end Sys2Proof.Claims
end

section
/-! SUPPORT. Proofs about loads, arithmetic, logic, shifts and the random byte (41_alu.md): VX, VF and PC after an
instruction whose working copy is one register write, or the two writes of an arithmetic or shift instruction. -/

namespace Sys2Proof.Machine

open Sys2Proof.Claims

/-! ## Results and flags (R150, R158, R159, R161) -/

theorem addResult_eq_add (a b : Byte) : addResult a b = a + b :=
  BitVec.eq_of_toNat_eq ((addResult_toNat a b).trans (BitVec.toNat_add a b).symm)

theorem subResult_eq_sub (a b : Byte) : subResult a b = a - b := by
  apply BitVec.eq_of_toNat_eq
  rw [subResult_toNat, BitVec.toNat_sub]
  omega

theorem noBorrowFlag_eq (a b : Byte) : noBorrowFlag a b = if b.toNat ≤ a.toNat then some 1#8 else none :=
  if_congr (by omega) rfl rfl

/-! ## VX and VF after the two writes (R151, R164) -/

/-- The value that two writes of VF leave is that of one of them. -/
theorem lastVf_cases (r : Byte) (flag : Option Byte) (d : Bool) :
    lastVf r flag d = r ∨ flag = some (lastVf r flag d) := by
  cases d with
  | false => exact .inl rfl
  | true =>
    cases flag with
    | none => exact .inl rfl
    | some b => exact .inr rfl

section

variable (s : State) (r : Byte) (flag : Option Byte) (d : Bool)

/-- The destination holds the result, unless it is VF and the flag is written after it. -/
theorem orderedWrites_dest {x : RegIdx} (h : x ≠ regF ∨ d = false) : (orderedWrites s x r flag d).reg x = r := by
  by_cases hx : x = regF
  · obtain hne | rfl := h
    · exact absurd hx hne
    · rw [hx, orderedWrites_reg_F, if_pos rfl]; rfl
  · rw [orderedWrites_reg_ne s hx, if_pos rfl]

theorem orderedWrites_vf (x : RegIdx) : (orderedWrites s x r flag d).reg regF =
    if x = regF then lastVf r flag d else flag.getD (s.reg regF) := by
  by_cases hx : x = regF
  · rw [hx, orderedWrites_reg_F, if_pos rfl, if_pos rfl]
  · rw [orderedWrites_reg_ne s hx, if_neg (Ne.symm hx), if_pos rfl, if_neg hx]

theorem flagged_table {x : RegIdx} (h : TableOrder s x) : flagged s x r flag d = orderedWrites s x r flag d :=
  (writeResult_eq_flagged s x r flag d).symm.trans (writeResult_table s h r flag d)

theorem flagged_vf_of_ne {x : RegIdx} (hx : x ≠ regF) :
    (flagged s x r flag d).reg regF = flag.getD (s.reg regF) := by
  rw [flagged_table s r flag d (.inl hx), orderedWrites_vf, if_neg hx]

/-- With `VF_ORDER` = Draw and destination VF, one of the two writes is left and one free input is counted (R164). -/
theorem flagged_draw (h : s.params.vfOrder = .draw) :
    ∃ b, (b = r ∨ flag = some b) ∧ flagged s regF r flag d = s.countDraw.setReg regF b := by
  rw [← writeResult_eq_flagged]
  obtain ⟨hno, -⟩ | ⟨-, -, b, hb, hwrite⟩ := writeResult_cases s regF r flag d
  · exact absurd ⟨rfl, h⟩ hno
  · refine ⟨b, ?_, hwrite⟩
    obtain hb | hb := hb
    · exact hb ▸ lastVf_cases r flag true
    · exact hb ▸ lastVf_cases r flag false

/-- With destination VF, VF ends as the result or as the flag, under both orders of the writes. -/
theorem flagged_vf_self :
    (flagged s regF r flag d).reg regF = r ∨ flag = some ((flagged s regF r flag d).reg regF) := by
  cases h : s.params.vfOrder with
  | table =>
    rw [flagged_table s r flag d (.inr h), orderedWrites_vf, if_pos rfl]
    exact lastVf_cases r flag d
  | draw =>
    obtain ⟨b, hb, hflagged⟩ := flagged_draw s r flag d h
    rw [hflagged, State.setReg_reg, if_pos rfl]
    exact hb

end

/-! ## From the working copy to the outcome -/

/-- A working copy with other registers, sent to another PC. -/
theorem onlyRegsAndPc_putPc {s u : State} {written : RegIdx → Prop} (hfile : u = { s with v := u.v })
    (hregs : RegsKept s u written) (a : Addr) : OnlyRegsAndPc s (u.putPc a) written :=
  have hmem : u.mem = s.mem := by rw [hfile]
  ⟨congrArg (·.putPc a) hfile, hregs, fun n _ => congrArg (Memory.read · n) hmem⟩

/-- An instruction that completes without a fault leaves the registers of its working copy. -/
theorem reg_of_completes {i : Instr} {s t : State} (h : exec i s = .next t) (hhalt : t.halt = none) (q : RegIdx) :
    t.reg q = (workOf i s).reg q := by
  obtain ⟨a, rfl⟩ | ⟨f, rfl⟩ := exec_next_cases h
  · rfl
  · cases hhalt

section

variable {i : Instr} {s : State} {x : RegIdx} (htarget : targetOf i s = .ok (s.pc.toNat + 2)) (hfits : Fits s 2)
include htarget hfits

/-- An instruction that writes one register. -/
theorem exec_setReg {b : Byte} (hwork : workOf i s = s.setReg x b) :
    ∃ t, exec i s = .next t ∧ t.reg x = b ∧ t.pc.toNat = s.pc.toNat + 2 ∧ OnlyRegsAndPc s t (· = x) := by
  rw [exec_of_target_fits htarget hfits, hwork]
  have hkept : RegsKept s (s.setReg x b) (· = x) := fun q hq => by rw [State.setReg_reg, if_neg hq]
  exact ⟨_, rfl, by simp, toNat_ofNat_pc hfits, onlyRegsAndPc_putPc rfl hkept _⟩

/-- An instruction that writes one register and consumes one free input. -/
theorem exec_countDraw_setReg {b : Byte} (hwork : workOf i s = s.countDraw.setReg x b) :
    ∃ t, exec i s = .next t ∧ t.reg x = b ∧ t.pc.toNat = s.pc.toNat + 2 ∧
      t = { s with v := t.v, pc := t.pc, draws := s.draws + 1 } ∧ RegsKept s t (· = x) := by
  rw [exec_of_target_fits htarget hfits, hwork]
  exact ⟨_, rfl, by simp, toNat_ofNat_pc hfits, rfl, fun q hq => by simp [hq]⟩

/-- An arithmetic or shift instruction whose two writes come in the order of the opcode table. -/
theorem exec_flagged {r : Byte} {flag : Option Byte} {d : Bool} (hwork : workOf i s = flagged s x r flag d)
    (horder : TableOrder s x) :
    ∃ t, exec i s = .next t ∧ (x ≠ regF ∨ d = false → t.reg x = r) ∧
      t.reg regF = (if x = regF then lastVf r flag d else flag.getD (s.reg regF)) ∧
      t.pc.toNat = s.pc.toNat + 2 ∧ OnlyRegsAndPc s t (fun q => q = x ∨ q = regF) := by
  rw [exec_of_target_fits htarget hfits, hwork]
  have hkept : RegsKept s (flagged s x r flag d) (fun q => q = x ∨ q = regF) := fun q hq =>
    writeResult_reg_of_ne s (not_or.mp hq).1 (not_or.mp hq).2 r flag d
  rw [flagged_table s r flag d horder] at hkept ⊢
  exact ⟨_, rfl, orderedWrites_dest s r flag d, orderedWrites_vf s r flag d x, toNat_ofNat_pc hfits,
    onlyRegsAndPc_putPc (orderedWrites_eq s x r flag d) hkept _⟩

/-- An arithmetic instruction: its flag is 1 when `c` holds and none otherwise, and is written last (R151). -/
theorem exec_setFlag {r : Byte} {flag : Option Byte} {c : Prop} [Decidable c]
    (hwork : workOf i s = flagged s x r flag true) (hflag : flag = if c then some 1#8 else none)
    (horder : TableOrder s x) :
    ∃ t, exec i s = .next t ∧ (x ≠ regF → t.reg x = r) ∧
      t.reg regF = (if c then 1#8 else if x = regF then r else s.reg regF) ∧
      t.pc.toNat = s.pc.toNat + 2 ∧ OnlyRegsAndPc s t (fun q => q = x ∨ q = regF) := by
  obtain ⟨t, hexec, hdest, hvf, hrest⟩ := exec_flagged htarget hfits hwork horder
  refine ⟨t, hexec, fun hx => hdest (.inl hx), hvf.trans ?_, hrest⟩
  by_cases hc : c
  · rw [hflag, if_pos hc, if_pos hc]
    exact ite_self _
  · rw [hflag, if_neg hc, if_neg hc]
    rfl

/-- A subtraction `a - b` into VX (R159, R161). -/
theorem exec_subtract {a b : Byte} (hwork : workOf i s = flagged s x (subResult a b) (noBorrowFlag a b) true)
    (horder : TableOrder s x) :
    ∃ t, exec i s = .next t ∧ (x ≠ regF → (t.reg x).toNat = (a.toNat + 256 - b.toNat) % 256) ∧
      (t.reg regF).toNat =
        (if a.toNat ≥ b.toNat then 1 else if x = regF then a.toNat + 256 - b.toNat else (s.reg regF).toNat) ∧
      t.pc.toNat = s.pc.toNat + 2 ∧ OnlyRegsAndPc s t (fun q => q = x ∨ q = regF) := by
  obtain ⟨t, hexec, hdest, hvf, hrest⟩ := exec_setFlag htarget hfits hwork (noBorrowFlag_eq a b) horder
  refine ⟨t, hexec, fun hx => by rw [hdest hx, subResult_toNat], ?_, hrest⟩
  rw [hvf]
  split_ifs with hborrow hx
  · rfl
  · rw [subResult_toNat]
    omega
  · rfl

end

/-! ## The flag of an instruction that completes (R24, R151) -/

/-- VF of a completed arithmetic instruction, whose flag is 1 when `c` holds and none otherwise. -/
theorem vf_of_completed_setFlag {i : Instr} {s t : State} {x : RegIdx} {r : Byte} {flag : Option Byte} {c : Prop}
    [Decidable c] (hhalt : t.halt = none) (hwork : workOf i s = flagged s x r flag true)
    (hflag : flag = if c then some 1#8 else none) (h : exec i s = .next t) :
    (x ≠ regF → t.reg regF = if c then 1#8 else s.reg regF) ∧
      (x = regF → t.reg regF = 1#8 ∨ t.reg regF = r) := by
  rw [reg_of_completes h hhalt, hwork]
  constructor
  · intro hx
    rw [flagged_vf_of_ne s r flag true hx, hflag]
    split <;> rfl
  · rintro rfl
    obtain hr | hsome := flagged_vf_self s r flag true
    · exact .inr hr
    · have hwritten := hflag.symm.trans hsome
      split at hwritten
      · exact .inl (Option.some.inj hwritten).symm
      · cases hwritten

/-- VF of a completed shift, which always writes its flag. -/
theorem vf_of_completed_shift {i : Instr} {s t : State} {x : RegIdx} {r b : Byte} {d : Bool} (hhalt : t.halt = none)
    (hwork : workOf i s = flagged s x r (some b) d) (h : exec i s = .next t) (hx : x ≠ regF) : t.reg regF = b := by
  rw [reg_of_completes h hhalt, hwork]
  exact flagged_vf_of_ne s r (some b) d hx

end Sys2Proof.Machine

namespace Sys2Proof.Claims

open Sys2Proof.Machine Laws.EncodesInRow

/-- Settles O31: each of the four writes VX alone, with an operation on the bits of VX and VY. -/
theorem copyAndLogic : Obligations.CopyAndLogic := by
  intro s x y hfits
  have hor := exec_setReg (i := .orReg x y) rfl hfits rfl
  have hand := exec_setReg (i := .andReg x y) rfl hfits rfl
  have hxor := exec_setReg (i := .xorReg x y) rfl hfits rfl
  refine ⟨exec_setReg rfl hfits rfl, ?_, ?_, ?_, mask_encodeXYn _ x y _, mask_encodeXYn _ x y _,
    mask_encodeXYn _ x y _, mask_encodeXYn _ x y _⟩
  · exact hor.imp fun t ⟨hexec, hreg, hrest⟩ => ⟨hexec, fun b => by rw [hreg, BitVec.getLsbD_or], hrest⟩
  · exact hand.imp fun t ⟨hexec, hreg, hrest⟩ => ⟨hexec, fun b => by rw [hreg, BitVec.getLsbD_and], hrest⟩
  · exact hxor.imp fun t ⟨hexec, hreg, hrest⟩ => ⟨hexec, fun b => by rw [hreg, BitVec.getLsbD_xor], hrest⟩

/-- Settles O32: the flag is 1 on a carry; with X = F and no carry the sum is below 256. -/
theorem addRegisters : Obligations.AddRegisters := by
  intro s x y hfits horder
  obtain ⟨t, hexec, hdest, hvf, hrest⟩ := exec_setFlag (i := .addReg x y) rfl hfits rfl rfl horder
  refine ⟨t, hexec, fun hx => by rw [hdest hx, addResult_toNat], ?_, hrest⟩
  rw [hvf]
  split_ifs with hcarry hx
  · rfl
  · rw [addResult_toNat]
    omega
  · rfl

/-- Settles O33: both are a subtraction into VX, with the operands in either order. -/
theorem subtractRegisters : Obligations.SubtractRegisters := fun _ _ _ hfits horder =>
  ⟨exec_subtract rfl hfits rfl horder, exec_subtract rfl hfits rfl horder⟩

/-- Settles O34: a shift writes its flag first, so that VX holds the result also when X = F. -/
theorem shifts : Obligations.Shifts := by
  intro s x y op hfits horder hop
  have hsource : shiftSource s x y = op := hop.symm
  obtain ⟨t, hexec, hdest, hvf, hrest⟩ := exec_flagged (i := .shr x y) rfl hfits rfl horder
  obtain ⟨t', hexec', hdest', hvf', hrest'⟩ := exec_flagged (i := .shl x y) rfl hfits rfl horder
  rw [hsource] at hdest hvf hdest' hvf'
  refine ⟨⟨t, hexec, ?_, fun hx => ?_, hrest⟩, t', hexec', ?_, fun hx => ?_, hrest'⟩
  · rw [hdest (.inr rfl), shrResult_toNat]
  · rw [hvf, if_neg hx]
    exact shrFlag_toNat op
  · rw [hdest' (.inr rfl), shlResult_toNat]
  · rw [hvf', if_neg hx]
    exact shlFlag_toNat op

/-- Settles O35: with destination VF and the order drawn, each of the five writes VF alone, with one of its two values. -/
theorem flagDestinationDraw : Obligations.FlagDestinationDraw := by
  intro s y i result flag hfits hdraw hi
  obtain ⟨htarget, d, hwork⟩ :
      targetOf i s = .ok (s.pc.toNat + 2) ∧ ∃ d, workOf i s = flagged s regF result flag d := by
    obtain ⟨rfl, rfl, rfl⟩ | ⟨rfl, rfl, rfl⟩ | ⟨rfl, rfl, rfl⟩ | ⟨rfl, rfl, rfl⟩ | ⟨rfl, rfl, rfl⟩ := hi
      <;> exact ⟨rfl, _, rfl⟩
  obtain ⟨b, hb, hflagged⟩ := flagged_draw s result flag d hdraw
  obtain ⟨t, hexec, rfl, hpc, hframe, hkept⟩ := exec_countDraw_setReg htarget hfits (hwork.trans hflagged)
  exact ⟨t, hexec, hb, hframe, hkept, hpc⟩

/-- Settles O36: on completion the registers are those of the working copy, whose VF the two writes give. -/
theorem arithmeticNeverClearsVf : Obligations.ArithmeticNeverClearsVf := by
  intro s t x y nn hhalt
  refine ⟨?_, ?_, ?_, fun h hx => ?_, fun h hx => ?_, fun h hx => ?_⟩
  · rw [← addResult_eq_add]
    exact vf_of_completed_setFlag hhalt rfl rfl
  · rw [← subResult_eq_sub]
    exact vf_of_completed_setFlag hhalt rfl (noBorrowFlag_eq _ _)
  · rw [← subResult_eq_sub]
    exact vf_of_completed_setFlag hhalt rfl (noBorrowFlag_eq _ _)
  · rw [vf_of_completed_shift hhalt rfl h hx]
    exact shrFlag_toNat _
  · rw [vf_of_completed_shift hhalt rfl h hx]
    exact shlFlag_toNat _
  · rw [reg_of_completes h hhalt]
    exact workOf_reg_of_not_writesReg (i := .addImm x nn) (Ne.symm hx) s

/-- Settles O37: CXNN writes VX alone and consumes one free input; a bit NN clears is 0 in the conjunction. -/
theorem randomByteUnderMask : Obligations.RandomByteUnderMask := by
  intro s x nn hfits
  obtain ⟨t, hexec, hreg, hpc, hframe, hkept⟩ := exec_countDraw_setReg (i := .rnd x nn) rfl hfits rfl
  have hmem : t.mem = s.mem := by rw [hframe]
  refine ⟨t, hexec, hreg, fun b hb => ?_, hpc, hframe, hkept, fun a _ => congrArg (Memory.read · a) hmem⟩
  rw [hreg, BitVec.getLsbD_and, hb, Bool.and_false]

/-- Settles O29: 6XNN writes VX alone. -/
theorem loadImmediate : Obligations.LoadImmediate := fun _ x nn hfits =>
  ⟨mask_encodeXNN _ x nn, exec_setReg rfl hfits rfl⟩

/-- Settles O30: 7XNN writes VX alone, with the sum mod 256. -/
theorem addImmediate : Obligations.AddImmediate := by
  intro s x nn hfits
  obtain ⟨t, hexec, hreg, hrest⟩ := exec_setReg (i := .addImm x nn) rfl hfits rfl
  exact ⟨mask_encodeXNN _ x nn, t, hexec, by rw [hreg, addResult_toNat], hrest⟩

end Sys2Proof.Claims
end

section
/-! SUPPORT. Proofs about the address register and the transfers between registers and memory (42_index_memory.md): I,
the bytes at I and the registers after an instruction of the family that completes. -/

namespace Sys2Proof.Machine

open Sys2Proof.Claims

/-! ## An instruction that writes I alone (R190 to R192) -/

theorem exec_setI {i : Instr} {s : State} {a : Addr} (htarget : targetOf i s = .ok (s.pc.toNat + 2)) (hfits : Fits s 2)
    (hwork : workOf i s = s.setI a) :
    ∃ t, exec i s = .next t ∧ t.i = a ∧ t.pc.toNat = s.pc.toNat + 2 ∧ t = { s with i := t.i, pc := t.pc } ∧
      BytesKept s t (fun _ => False) := by
  rw [exec_of_target_fits htarget hfits, hwork]
  exact ⟨_, rfl, rfl, toNat_ofNat_pc hfits, rfl, fun _ _ => rfl⟩

/-! ## An instruction whose access of memory lies inside it (R63, R193 to R195) -/

theorem nextAfter_inside (s : State) {last : Nat} (h : last ≤ 0xFFF) :
    targetOf.nextAfter s last = .ok (s.pc.toNat + 2) := by
  rw [targetOf.nextAfter, checkRange_inside s h]
  rfl

/-- An instruction that accesses the bytes from I to `last`, all inside memory, goes on to the next instruction. -/
theorem exec_access {i : Instr} {s : State} {last : Nat} (htarget : targetOf i s = targetOf.nextAfter s last)
    (hlast : last ≤ 0xFFF) (hfits : Fits s 2) :
    exec i s = .next ((workOf i s).putPc (BitVec.ofNat 12 (s.pc.toNat + 2))) :=
  exec_of_target_fits (htarget.trans (nextAfter_inside s hlast)) hfits

/-- The byte at I + k after the stores of an instruction. -/
theorem workOf_mem_read_stored {i : Instr} (s : State) {k : Nat} (hk : k < storeCount i) :
    (workOf i s).mem.read (s.i.toNat + k) = storeValue s i k := by
  rw [workOf_mem, read_writeBytes, if_pos ⟨Nat.le_add_right _ _, Nat.add_lt_add_left hk _⟩, Nat.add_sub_cancel_left]

/-- The stores of an instruction from I to `last` leave every other byte as it was. -/
theorem bytesKept_workOf {i : Instr} {s : State} {last : Nat} (hlast : s.i.toNat + storeCount i = last + 1) :
    BytesKept s (workOf i s) (fun a => s.i.toNat ≤ a ∧ a ≤ last) := by
  intro a hout
  rw [workOf_mem, read_writeBytes, if_neg]
  rwa [hlast, Nat.lt_succ_iff]

/-! ## I after a transfer of registers (R196) -/

theorem bulkI_toNat (s : State) (x : RegIdx) :
    (bulkI s x).toNat = if s.params.compat = true then s.i.toNat else (s.i.toNat + x.toNat + 1) % 4096 := by
  rw [bulkI, apply_ite BitVec.toNat, bulkNextI_toNat]

end Sys2Proof.Machine

namespace Sys2Proof.Claims

open Sys2Proof.Machine Laws.EncodesInRow

/-- Settles O39: the new I is the sum as a 12-bit address, so it wraps by itself; the check for Fault comes first. -/
theorem addToAddress : Obligations.AddToAddress := by
  intro s x
  refine ⟨fun hfits hsum => ?_, fun hsum hparam => ?_⟩
  · have hno : ¬ (s.i.toNat + (s.reg x).toNat > 0xFFF ∧ s.params.iAddOverflow = .fault) := by
      rintro ⟨habove, hfault⟩
      obtain hle | hwrap := hsum
      · exact absurd habove (Nat.not_lt.mpr hle)
      · rw [hfault] at hwrap; cases hwrap
    obtain ⟨t, hexec, hi, hrest⟩ := exec_setI (i := .addI x) (if_neg hno) hfits rfl
    exact ⟨t, hexec, by rw [hi, BitVec.toNat_ofNat], hrest⟩
  · exact exec_of_target_error (i := .addI x) (if_pos ⟨hsum, hparam⟩)

/-- Settles O40: FX29 writes I alone, with the glyph address. -/
theorem pointAtGlyph : Obligations.PointAtGlyph := by
  intro s x hfits
  obtain ⟨t, hexec, hi, hrest⟩ := exec_setI (i := .ldF x) rfl hfits rfl
  exact ⟨mask_encodeXkk _ x _, t, hexec, by rw [hi, glyphAddr_toNat, Nat.zero_add], hrest⟩

/-- Settles O41: the three bytes stored are the decimal digits of VX. -/
theorem storeDecimalDigits : Obligations.StoreDecimalDigits := by
  intro s x hfits hlast
  have hstored (k : Nat) (hk : k < 3) : (workOf (.ldB x) s).mem.read (s.i.toNat + k) = decimalDigit (s.reg x) k :=
    workOf_mem_read_stored s hk
  obtain ⟨hhundreds, htens, hunits⟩ := decimalDigit_toNat (s.reg x)
  refine ⟨_, exec_access rfl hlast hfits, ?_, ?_, ?_, bytesKept_workOf rfl, toNat_ofNat_pc hfits, rfl⟩
  · exact (congrArg BitVec.toNat (hstored 0 (by decide))).trans hhundreds
  · exact (congrArg BitVec.toNat (hstored 1 (by decide))).trans htens
  · exact (congrArg BitVec.toNat (hstored 2 (by decide))).trans hunits

/-- Settles O42: the byte stored at I + k is the register with the number k. -/
theorem storeRegisters : Obligations.StoreRegisters := by
  intro s x hfits hlast
  refine ⟨_, exec_access rfl hlast hfits, fun k hk => ?_, bytesKept_workOf rfl, bulkI_toNat s x, toNat_ofNat_pc hfits,
    rfl⟩
  have hstored : (workOf (.ldMemVx x) s).mem.read (s.i.toNat + k.toNat) = s.reg (BitVec.ofNat 4 k.toNat) :=
    workOf_mem_read_stored s (Nat.lt_succ_of_le hk)
  rwa [BitVec.ofNat_toNat, BitVec.setWidth_eq] at hstored

/-- Settles O43: the loop of loads writes the registers up to VX and no other. -/
theorem loadRegisters : Obligations.LoadRegisters := by
  intro s x hfits hlast
  have hreg (r : RegIdx) : (workOf (.ldVxMem x) s).reg r =
      if r.toNat < x.toNat + 1 then s.mem.read (s.i.toNat + r.toNat) else s.reg r :=
    setRegs_reg s _ (x.toNat + 1) x.isLt r
  refine ⟨_, exec_access rfl hlast hfits, fun k hk => ?_, fun r hr => ?_, bulkI_toNat s x, toNat_ofNat_pc hfits, rfl,
    fun _ _ => rfl⟩
  · exact (hreg k).trans (if_pos (Nat.lt_succ_of_le hk))
  · exact (hreg r).trans (if_neg fun hlt => hr (Nat.le_of_lt_succ hlt))

/-- Settles O38: ANNN writes I alone. -/
theorem loadAddress : Obligations.LoadAddress := fun _ nnn hfits =>
  ⟨mask_encodeNNN _ nnn, exec_setI rfl hfits rfl⟩

end Sys2Proof.Claims
end

section
/-! SUPPORT. Proofs about the display (43_display.md): what the blitter leaves in a cell and in VF, in terms of the pixel
a statement puts on a cell, and the two drawings of one sprite. -/

namespace Sys2Proof.Machine

open Sys2Proof.Claims

/-! ## The sprite's pixel on a cell (R222, R223, R225) -/

/-- The pixel of the statements, in the offsets and bits of the blitter. -/
theorem spritePixel_eq (s : State) (x y : RegIdx) (n : BitVec 4) (c : Fin 64) (r : Fin 32) :
    spritePixel s x y n c r = (decide (rowOffset (s.reg y) r < n.toNat) && (decide (colOffset (s.reg x) c < 8) &&
      spriteBit (s.mem.read (s.i.toNat + rowOffset (s.reg y) r)) (colOffset (s.reg x) c))) := by
  rw [← Bool.and_assoc, Bool.and_comm (decide (_ < n.toNat))]
  rfl

/-- The pixel depends on VX, VY, I and memory alone. -/
theorem spritePixel_congr {s t : State} {x y : RegIdx} (hx : t.reg x = s.reg x) (hy : t.reg y = s.reg y)
    (hi : t.i = s.i) (hmem : t.mem = s.mem) (n : BitVec 4) : spritePixel t x y n = spritePixel s x y n := by
  funext c r
  simp only [spritePixel, hx, hy, hi, hmem]

/-- Some cell that is 1 lies under a 1 pixel of the sprite (R224). -/
def Collides (s : State) (x y : RegIdx) (n : BitVec 4) : Prop :=
  ∃ c r, s.fb.cell c r = true ∧ spritePixel s x y n c r = true

/-! ## The working copy of DXYN (R222) -/

/-- The blitter in terms of the statements' pixel: the cells it leaves, and the collision it reports. A 4-bit number of
rows addresses no cell twice. -/
theorem drawSprite_spritePixel (s : State) (x y : RegIdx) (n : BitVec 4) :
    let d := drawSprite s.mem s.i.toNat (s.reg x) (s.reg y) n.toNat s.fb
    (∀ c r, d.1.cell c r = (s.fb.cell c r != spritePixel s x y n c r)) ∧ (d.2 = true ↔ Collides s x y n) := by
  have hrows : n.toNat ≤ 32 := by have := n.isLt; omega
  obtain ⟨hcell, hcollision⟩ := drawSprite_spec s.mem s.i.toNat (s.reg x) (s.reg y) n.toNat s.fb hrows
  refine ⟨fun c r => by rw [hcell, spritePixel_eq], hcollision.trans ?_⟩
  refine exists_congr fun c => exists_congr fun r => ?_
  rw [and_comm (a := s.fb.cell c r = true), spritePixel_eq]
  simp only [Bool.and_eq_true, decide_eq_true_eq, and_assoc]

theorem drawn_cell (s : State) (x y : RegIdx) (n : BitVec 4) (c : Fin 64) (r : Fin 32) :
    (drawn s x y n).fb.cell c r = (s.fb.cell c r != spritePixel s x y n c r) :=
  (drawSprite_spritePixel s x y n).1 c r

/-- VF is 1 on a collision and 0 otherwise: it is always assigned. -/
theorem drawn_vf (s : State) (x y : RegIdx) (n : BitVec 4) :
    (drawn s x y n).reg regF = 1#8 ∧ Collides s x y n ∨ (drawn s x y n).reg regF = 0#8 ∧ ¬ Collides s x y n := by
  obtain ⟨-, hcollision⟩ := drawSprite_spritePixel s x y n
  rw [drawn, State.setReg_reg, if_pos rfl, ← hcollision]
  cases (drawSprite s.mem s.i.toNat (s.reg x) (s.reg y) n.toNat s.fb).2
  · exact .inr ⟨rfl, Bool.false_ne_true⟩
  · exact .inl ⟨rfl, rfl⟩

theorem drawn_vf_eq_one_iff (s : State) (x y : RegIdx) (n : BitVec 4) :
    (drawn s x y n).reg regF = 1#8 ↔ Collides s x y n := by
  obtain ⟨hvf, hcollides⟩ | ⟨hvf, hcollides⟩ := drawn_vf s x y n
  · exact iff_of_true hvf hcollides
  · exact iff_of_false (by rw [hvf]; decide) hcollides

/-- DXYN writes no register but VF. -/
theorem drawn_regsKept (s : State) (x y : RegIdx) (n : BitVec 4) : RegsKept s (drawn s x y n) (· = regF) :=
  fun _ hr => workOf_reg_of_not_writesReg (i := .drw x y n) hr s

/-- A sprite inside memory lets DXYN go on to the next instruction; N = 0 reads no byte. -/
theorem targetOf_drw {s : State} {n : BitVec 4} (x y : RegIdx) (h : SpriteInMemory s n) :
    targetOf (.drw x y n) s = .ok (s.pc.toNat + 2) := by
  by_cases hn : n = 0#4
  · exact if_pos hn
  · exact (if_neg hn).trans (nextAfter_inside s (by omega))

/-! ## Two drawings of one sprite (R228) -/

/-- An instruction that completes without a fault has left its working copy, at its own PC. -/
theorem eq_workOf_of_completes {i : Instr} {s t : State} (h : exec i s = .next t) (hhalt : t.halt = none) :
    t = (workOf i s).putPc t.pc := by
  have hexec := exec_of_target_addr (target_of_completes h hhalt)
  rw [h] at hexec
  exact Host.Outcome.next.inj hexec

section
variable {s t : State} {x y : RegIdx} {n : BitVec 4} (hfb : t.fb = (drawn s x y n).fb)
  (hpixel : spritePixel t x y n = spritePixel s x y n)
include hfb hpixel

/-- The second drawing flips back what the first one flipped. -/
theorem drawn_drawn_fb : (drawn t x y n).fb = s.fb := by
  refine Fb.ext_cell fun c r => ?_
  rw [drawn_cell, hfb, drawn_cell, hpixel, Bool.bne_assoc, bne_self_eq_false, Bool.bne_false]

/-- The second drawing collides where the first one turned a cell on. -/
theorem collides_drawn_iff : Collides t x y n ↔ ∃ c r, spritePixel s x y n c r = true ∧ s.fb.cell c r = false := by
  refine exists_congr fun c => exists_congr fun r => ?_
  rw [hfb, drawn_cell, hpixel]
  cases s.fb.cell c r <;> cases spritePixel s x y n c r <;> decide

end

end Sys2Proof.Machine

namespace Sys2Proof.Claims

open Sys2Proof.Machine

/-- Settles O47: the working copy is the blitter's, whose cells and collision are those of the sprite's pixels. -/
theorem drawSprite : Obligations.DrawSprite := by
  intro s x y n hfits hsprite
  refine ⟨_, exec_of_target_fits (targetOf_drw x y hsprite) hfits, drawn_cell s x y n, ?_, toNat_ofNat_pc hfits, rfl,
    drawn_regsKept s x y n, fun _ _ => rfl⟩
  exact (drawn_vf s x y n).imp_right fun ⟨hvf, hno⟩ => ⟨hvf, fun c r hcell => hno ⟨c, r, hcell⟩⟩

/-- Settles O48: the second drawing has the target and the pixels of the first, so it completes and flips the same
cells. -/
theorem drawTwiceRestoresDisplay : Obligations.DrawTwiceRestoresDisplay := by
  intro s t u x y n _ hfirst hhalt hx hy hsecond
  have htarget := target_of_completes hfirst hhalt
  have ht := eq_workOf_of_completes hfirst hhalt
  have hfb : t.fb = (drawn s x y n).fb := by rw [ht]; rfl
  have hi : t.i = s.i := by rw [ht]; rfl
  have hmem : t.mem = s.mem := by rw [ht]; rfl
  have hagain : targetOf (.drw x y n) { t with pc := s.pc } = .ok t.pc.toNat := by rw [← htarget, ht]; rfl
  have hpixel : spritePixel { t with pc := s.pc } x y n = spritePixel s x y n := spritePixel_congr hx hy hi hmem n
  rw [exec_of_target_addr hagain] at hsecond
  obtain rfl := Host.Outcome.next.inj hsecond
  exact ⟨hhalt, drawn_drawn_fb hfb hpixel, (drawn_vf_eq_one_iff _ x y n).trans (collides_drawn_iff hfb hpixel)⟩

/-- Settles O46: 00E0 writes the framebuffer and PC alone. -/
theorem clearDisplay : Obligations.ClearDisplay := fun _ hfits =>
  ⟨_, exec_of_target_fits (i := .cls) rfl hfits, Fb.clear_cell, toNat_ofNat_pc hfits, rfl, fun _ _ => rfl⟩

end Sys2Proof.Claims
end

section
/-! SUPPORT. Proofs about the keys and the timers (44_timer_input.md): the target of a key skip whose look-up faults, the
key-down that ends a wait, and an instruction in a state with another sound timer. -/

namespace Sys2Proof.Machine

open Sys2Proof.Claims

/-! ## The key skips (R240 to R242) -/

/-- A key skip raises what its look-up raises. -/
theorem targetOf_keySkip_error {i : Instr} {s : State} {x : RegIdx} {f : Fault} (hi : i = .skp x ∨ i = .sknp x)
    (h : keyLookup s (s.reg x) = .error f) : targetOf i s = .error f := by
  obtain rfl | rfl := hi <;> exact congrArg (Except.map _) h

/-- A key skip whose look-up does not fault goes on by 4 or by 2. -/
theorem targetOf_keySkip {i : Instr} {s : State} {x : RegIdx} {c : Bool} (hi : i = .skp x ∨ i = .sknp x)
    (hskip : skipCondition s i = some c) (h : (s.reg x).toNat ≤ 0xF ∨ s.params.keyIndex ≠ .fault) :
    targetOf i s = .ok (s.pc.toNat + if c = true then 4 else 2) := by
  obtain hok | ⟨y, hy, ⟨habove, hfault⟩, -⟩ := targetOf_of_skip hskip
  · exact hok
  · have hyx : x = y := by obtain rfl | rfl := hi <;> simpa using hy
    subst hyx
    exact (h.elim habove.not_ge fun hparam => hparam hfault).elim

theorem workOf_keySkip {i : Instr} {x : RegIdx} (hi : i = .skp x ∨ i = .sknp x) (s : State) : workOf i s = s := by
  obtain rfl | rfl := hi <;> rfl

/-! ## The end of a wait (R277) -/

/-- A key-down ends a wait: its code goes to the register of the wait, the gate opens, and PC stays. -/
theorem keyDown_ends_wait {s : State} (hh : s.halt = none) (hw : s.waiting = true) (k : KeyCode) :
    ∃ u, applyEvent (.keyDown k) s = .next u ∧ u.reg s.waitReg = keyByte k ∧ u.waiting = false ∧ u.pc = s.pc := by
  have hreg : (releaseGate (s.setKey k true) k).reg s.waitReg = keyByte k :=
    (State.setReg_reg _ s.waitReg (keyByte k) s.waitReg).trans (if_pos rfl)
  rw [applyEvent_keyDown, applyKeyDown_of_waiting hh hw]
  exact ⟨_, rfl, hreg, rfl, rfl⟩

/-! ## No instruction reads the sound timer (R33, R246) -/

/-- `s` with another value in the sound timer. -/
def State.withSound (s : State) (b : Byte) : State := { s with sound := b }

theorem targetOf_withSound (i : Instr) (s : State) (b : Byte) : targetOf i (s.withSound b) = targetOf i s := by
  cases i <;> rfl

theorem flagged_withSound (s : State) (x : RegIdx) (r : Byte) (flag : Option Byte) (d : Bool) (b : Byte) :
    flagged (s.withSound b) x r flag d = (flagged s x r flag d).withSound b := by
  have hwrite : writeResult (s.withSound b) x r flag d = (writeResult s x r flag d).withSound b := by
    unfold writeResult orderedWrites State.withSound
    split_ifs <;> cases flag <;> rfl
  rw [flagged, hwrite]
  rfl

theorem setRegs_withSound (s : State) (f : Nat → Byte) (n : Nat) (b : Byte) :
    (s.withSound b).setRegs f n = (s.setRegs f n).withSound b := by
  induction n with
  | zero => rfl
  | succ n ih => rw [setRegs_succ, setRegs_succ, ih]; rfl

/-- The working copy carries the sound timer along, unless it is FX18's, which overwrites it. -/
theorem workOf_withSound {i : Instr} (hi : ∀ x, i ≠ .ldStVx x) (s : State) (b : Byte) :
    workOf i (s.withSound b) = (workOf i s).withSound b := by
  cases i
  case ldStVx x => exact absurd rfl (hi x)
  case addReg | subReg | shr | subn | shl => exact flagged_withSound s _ _ _ _ b
  case ldVxMem x =>
    have hv := congrArg State.v (setRegs_withSound s (fun k => s.mem.read (s.i.toNat + k)) (x.toNat + 1) b)
    exact congrArg (fun v => { s.withSound b with v := v, i := bulkI s x }) hv
  all_goals rfl

/-- FX18 does the same whatever the sound timer holds: it overwrites it, or takes a fault. -/
theorem exec_ldStVx_withSound (s : State) (x : RegIdx) (b : Byte) :
    ∃ b', exec (.ldStVx x) (s.withSound b) = mapNext (·.withSound b') (exec (.ldStVx x) s) := by
  by_cases hfits : Fits s 2
  · have hfits' : Fits (s.withSound b) 2 := hfits
    refine ⟨s.reg x, ?_⟩
    rw [exec_of_target_fits (i := .ldStVx x) rfl hfits, exec_of_target_fits (i := .ldStVx x) rfl hfits']
    rfl
  · have hhalts (u : State) (hu : ¬ Fits u 2) : Halts (.ldStVx x) u .pcOutOfRange (u.pc.toNat + 2) :=
      halts_of_target_overflows rfl (Nat.not_le.mp hu)
    refine ⟨b, ?_⟩
    rw [hhalts s hfits, hhalts (s.withSound b) hfits]
    rfl

/-- With another value in the sound timer an instruction does the same to everything but the sound timer. -/
theorem exec_withSound (i : Instr) (s : State) (b : Byte) :
    ∃ b', exec i (s.withSound b) = mapNext (·.withSound b') (exec i s) := by
  by_cases hi : ∃ x, i = .ldStVx x
  · obtain ⟨x, rfl⟩ := hi
    exact exec_ldStVx_withSound s x b
  · exact ⟨b, exec_comm (f := (·.withSound b)) (targetOf_withSound i s b) (workOf_withSound (not_exists.mp hi) s b)
      (fun _ _ => rfl) fun _ _ => rfl⟩

end Sys2Proof.Machine

namespace Sys2Proof.Claims

open Sys2Proof.Machine Laws.EncodesInRow

/-- Settles O49: the look-up of a key skip answers the key state of the condition, or it is the one that faults. -/
theorem keySkips : Obligations.KeySkips := by
  intro s x i c hi hskip
  refine ⟨fun hlookup hfits => ?_, fun habove hfault => ?_⟩
  · exact exec_onlyPc (workOf_keySkip hi s) (targetOf_keySkip hi hskip hlookup) hfits
  · exact exec_of_target_error (targetOf_keySkip_error hi (keyLookup_above_fault s habove hfault))

/-- Settles O51: FX0A closes the gate whatever the keys are, and the next key-down finds VX as the register of the
wait. -/
theorem waitForKey : Obligations.WaitForKey := by
  intro s x k hh hfits
  have hexec := exec_of_target_fits (i := .ldVxK x) rfl hfits
  obtain ⟨u, hkeyDown, hreg, hopen, hpc⟩ := keyDown_ends_wait
    (s := (workOf (.ldVxK x) s).putPc (BitVec.ofNat 12 (s.pc.toNat + 2))) hh rfl k
  exact ⟨_, u, hexec, rfl, rfl, toNat_ofNat_pc hfits, rfl, fun _ _ => rfl, hkeyDown,
    (congrArg BitVec.toNat hreg).trans (keyByte_toNat k), hopen, hpc⟩

/-- Settles O52: each timer instruction writes its timer alone, and the sound timer has no reader. -/
theorem setTimers : Obligations.SetTimers := by
  intro s x
  refine ⟨fun hfits => ⟨mask_encodeXkk _ x _, ?_⟩, fun hfits => ⟨mask_encodeXkk _ x _, ?_⟩, fun i t b h => ?_⟩
  · exact ⟨_, exec_of_target_fits (i := .ldDtVx x) rfl hfits, rfl, toNat_ofNat_pc hfits, rfl, fun _ _ => rfl⟩
  · exact ⟨_, exec_of_target_fits (i := .ldStVx x) rfl hfits, rfl, toNat_ofNat_pc hfits, rfl, fun _ _ => rfl⟩
  · obtain ⟨b', hexec⟩ := exec_withSound i s b
    rw [h] at hexec
    exact ⟨b', hexec⟩

/-- Settles O50: FX07 writes VX alone, with the delay timer. -/
theorem readDelayTimer : Obligations.ReadDelayTimer := fun _ x hfits =>
  ⟨mask_encodeXkk _ x _, exec_setReg rfl hfits rfl⟩

end Sys2Proof.Claims
end

section
/-! SUPPORT. Proofs about the events and the faults (60_exceptions.md): every fault a step records is taken in the state
the step started from, a halted machine is frozen, and what a tick and the key events do to a running machine and to a
wait. -/

namespace Sys2Proof.Machine

open Sys2Proof.Claims

/-! ## Taking a fault (R262, R264) -/

/-- `t` is `s` with a fault taken, whose word, if it has one, is the word at PC. -/
def TakesFault (s t : State) : Prop := ∃ w f, t = s.takeFault w f ∧ ∀ u, w = some u → u = wordAtPc s

/-- A fetch that answers a word answers the word at PC. -/
theorem fetch_eq_wordAtPc {s : State} {w : Word} (h : fetch s = .ok w) : w = wordAtPc s := by
  obtain hok | herr | herr := fetch_cases s
  · exact Except.ok.inj (h.symm.trans hok)
  · rw [herr] at h; cases h
  · rw [herr] at h; cases h

/-- An instruction that records a fault takes it, with its own word. -/
theorem takeFault_of_exec {i : Instr} {s t : State} (h : exec i s = .next t) (hs : s.halt = none)
    (ht : t.halt ≠ none) : ∃ f, t = s.takeFault (some (encode i)) f := by
  obtain hok | ⟨f, -, hf⟩ := (exec_next_iff i s t).mp h
  · obtain ⟨hhalt, -⟩ := bodyOf_ok_keeps hok
    exact absurd (hhalt.trans hs) ht
  · exact ⟨f, hf⟩

/-- A cycle that records a fault takes it: of the fetch, with no word; of the decoder or of the instruction, with the
word fetched. -/
theorem takesFault_of_cycle {s t : State} (h : cycle s = .next t) (hs : s.halt = none) (ht : t.halt ≠ none) :
    TakesFault s t := by
  obtain ⟨f, -, hc⟩ | ⟨w, hw, ⟨r, -, hc⟩ | ⟨i, hi, hc⟩⟩ := cycle_cases s <;> rw [hc] at h
  · cases h
    exact ⟨none, f, rfl, fun u hu => by cases hu⟩
  · cases h
    exact ⟨some w, _, rfl, fun u hu => Option.some.inj hu ▸ fetch_eq_wordAtPc hw⟩
  · obtain ⟨f, hf⟩ := takeFault_of_exec h hs ht
    have hword : encode i = wordAtPc s := (encode_of_decode hi).1.trans (fetch_eq_wordAtPc hw)
    exact ⟨_, f, hf, fun u hu => Option.some.inj hu ▸ hword⟩

/-! ## The events of a running machine (R275, R277, R278) -/

theorem decrement_toNat (b : Byte) : (decrement b).toNat = b.toNat - 1 := by
  have hlt := b.isLt
  unfold decrement
  split
  · rw [BitVec.toNat_ofNat]
    omega
  · omega

theorem applyKeyDown_of_open {s : State} (hh : s.halt = none) (hw : s.waiting = false) (k : KeyCode) :
    applyKeyDown s k = s.setKey k true := by
  simp [applyKeyDown, hh, hw]

@[simp] theorem applyTick_halt (s : State) : (applyTick s).halt = s.halt := by
  unfold applyTick
  split <;> rfl

@[simp] theorem applyKeyDown_halt (s : State) (k : KeyCode) : (applyKeyDown s k).halt = s.halt := by
  unfold applyKeyDown
  split_ifs <;> rfl

@[simp] theorem applyKeyUp_halt (s : State) (k : KeyCode) : (applyKeyUp s k).halt = s.halt := by
  unfold applyKeyUp
  split <;> rfl

/-- Only a STEP records a fault, and it takes it. -/
theorem takesFault_of_applyEvent {e : Event} {s t : State} (h : applyEvent e s = .next t) (hs : s.halt = none)
    (ht : t.halt ≠ none) : TakesFault s t := by
  cases e with
  | step =>
    obtain ⟨-, he⟩ | ⟨-, -, he⟩ := execStep_cases s <;> rw [applyEvent_step, he] at h
    · cases h
      exact absurd hs ht
    · exact takesFault_of_cycle h hs ht
  | tick => cases h; exact absurd ((applyTick_halt s).trans hs) ht
  | keyDown k => cases h; exact absurd ((applyKeyDown_halt s k).trans hs) ht
  | keyUp k => cases h; exact absurd ((applyKeyUp_halt s k).trans hs) ht

/-! ## A halted machine (R265) -/

theorem applyEvent_of_halted {s : State} (h : s.halt ≠ none) (e : Event) : applyEvent e s = .next s := by
  have hsome : s.halt.isSome = true := Option.isSome_iff_ne_none.mpr h
  cases e with
  | step => exact if_pos hsome
  | tick => exact congrArg Host.Outcome.next (if_pos hsome)
  | keyDown k => exact congrArg Host.Outcome.next (if_pos hsome)
  | keyUp k => exact congrArg Host.Outcome.next (if_pos hsome)

/-! ## The fatal conditions (R260) -/

theorem decode_call (loose : Bool) {w : Word} (h : opField w = 2#4) : decode loose w = .ok (.call (nnnField w)) := by
  have hword : encode (.call (nnnField w)) = w := encodeNNN_of_fields (congrArg BitVec.toNat h)
  rw [← decode_encode (loose := loose) (i := .call (nnnField w)) rfl, hword]

/-- A ready machine whose word decodes to an instruction that raises before `SetPC` takes that fault with the word at
PC. -/
theorem step_of_target_error {s : State} {i : Instr} {f : Fault} (hready : Ready s) (hfetch : Fetchable s)
    (hd : decode s.params.loose59 (wordAtPc s) = .ok i) (h : targetOf i s.takeEvent = .error f) :
    step s = .next (s.takeEvent.takeFault (some (wordAtPc s)) f) := by
  rw [step_of_decode hready hfetch hd, exec_of_target_error h, (encode_of_decode hd).1]

/-- A ready machine whose word the decoder rejects takes UnknownOpcode with that word. -/
theorem step_of_decode_error {s : State} {r : Reject} (hready : Ready s) (hfetch : Fetchable s)
    (hd : decode s.params.loose59 (wordAtPc s) = .error r) :
    step s = .next (s.takeEvent.takeFault (some (wordAtPc s)) (.unknownOpcode (wordAtPc s))) := by
  have hword : fetch s.takeEvent = .ok (wordAtPc s) := fetch_ok s.takeEvent hfetch
  have hreject : decode s.takeEvent.params.loose59 (wordAtPc s) = .error r := hd
  rw [step_of_ready hready, cycle, hword]
  simp only [hreject]

/-! ## A wait with no key-down (R275, R279) -/

/-- What an event other than a key-down does to a machine in a wait: the gate stays closed, PC stays, and the timers
change by a tick alone. -/
theorem applyEvent_of_held {e : Event} {s t : State} (hs : s.held = true) (he : ∀ k, e ≠ .keyDown k)
    (h : applyEvent e s = .next t) :
    t.held = true ∧ t.pc = s.pc ∧
      t.delay = (if e = .tick then decrement s.delay else s.delay) ∧
      t.sound = if e = .tick then decrement s.sound else s.sound := by
  have hgate : s.halt = none ∧ s.waiting = true := by simpa [State.held] using hs
  obtain ⟨hh, hw⟩ := hgate
  cases e with
  | step =>
    rw [applyEvent_step, execStep_of_waiting hw] at h
    cases h
    exact ⟨hs, rfl, rfl, rfl⟩
  | tick =>
    rw [applyEvent_tick, applyTick_of_running hh] at h
    cases h
    exact ⟨hs, rfl, rfl, rfl⟩
  | keyDown k => exact absurd rfl (he k)
  | keyUp k =>
    rw [applyEvent_keyUp, applyKeyUp_of_running hh] at h
    cases h
    exact ⟨hs, rfl, rfl, rfl⟩

/-- Step `n` of a run, as the event it applies. -/
theorem applyEvent_afterSteps (s : State) (n : Nat) :
    applyEvent (s.eventAt n) (s.afterSteps n).takeEvent = .next (s.afterSteps (n + 1)) := by
  obtain ⟨t, ht⟩ := applyEvent_answers (s.eventAt n) (s.afterSteps n).takeEvent
  rw [State.afterSteps_succ, step_afterSteps, ht, State.goesOn_next]

/-- The larger of the two timers: the measure that ticks bring down to 0 in a wait (R275). -/
def State.maxTimer (s : State) : Nat := max s.delay.toNat s.sound.toNat

theorem State.maxTimer_eq_zero_iff (s : State) : s.maxTimer = 0 ↔ s.delay = 0#8 ∧ s.sound = 0#8 := by
  simp [State.maxTimer, BitVec.toNat_eq]

section

variable {s : State} (hs : s.held = true) (hno : ∀ n k, s.eventAt n ≠ .keyDown k)
include hs hno

/-- With no key-down a wait never ends. -/
theorem afterSteps_of_held (n : Nat) : (s.afterSteps n).held = true ∧ (s.afterSteps n).pc = s.pc := by
  induction n with
  | zero => exact ⟨hs, rfl⟩
  | succ n ih =>
    obtain ⟨hheld, hpc⟩ := ih
    obtain ⟨hheld', hpc', -⟩ := applyEvent_of_held (s := (s.afterSteps n).takeEvent) hheld (hno n)
      (applyEvent_afterSteps s n)
    exact ⟨hheld', hpc'.trans hpc⟩

/-- In a wait with no key-down the timers go down by one at a tick and stay otherwise. -/
theorem maxTimer_afterSteps_succ (n : Nat) :
    (s.afterSteps (n + 1)).maxTimer =
      if s.eventAt n = .tick then (s.afterSteps n).maxTimer - 1 else (s.afterSteps n).maxTimer := by
  obtain ⟨-, -, hdelay, hsound⟩ := applyEvent_of_held (s := (s.afterSteps n).takeEvent)
    (afterSteps_of_held hs hno n).1 (hno n) (applyEvent_afterSteps s n)
  rw [State.maxTimer, hdelay, hsound]
  split
  · rw [decrement_toNat, decrement_toNat]
    exact Nat.sub_max_sub_right _ _ 1
  · rfl

/-- In a fair wait with no key-down both timers run down to 0: the larger one never rises, so it settles at some value,
and the next tick would lower any value but 0. -/
theorem maxTimer_eventually_zero (hfair : s.Fair) : ∃ m, ∀ n, m ≤ n → (s.afterSteps n).maxTimer = 0 := by
  have hstep := maxTimer_afterSteps_succ hs hno
  have hanti : Antitone fun n => (s.afterSteps n).maxTimer := antitone_nat_of_succ_le fun n => by
    rw [hstep]
    split <;> omega
  obtain ⟨m, hsettled⟩ := WellFoundedLT.antitone_chain_condition hanti
  obtain ⟨k, hk, htick⟩ := hfair m
  have hlower : (s.afterSteps (k + 1)).maxTimer = (s.afterSteps k).maxTimer - 1 := by rw [hstep, if_pos htick]
  have hsame : (s.afterSteps k).maxTimer = (s.afterSteps (k + 1)).maxTimer :=
    (hsettled k hk).symm.trans (hsettled (k + 1) (Nat.le_succ_of_le hk))
  have hzero : (s.afterSteps k).maxTimer = 0 := by omega
  exact ⟨m, fun n hn => (hsettled n hn).symm.trans ((hsettled k hk).trans hzero)⟩

end

end Sys2Proof.Machine

namespace Sys2Proof.Claims

open Sys2Proof.Machine

/-- Settles O7: a fault is taken by a STEP, in the state whose next event has been taken and in which nothing else has
changed. -/
theorem faultsArePrecise : Obligations.FaultsArePrecise := by
  intro s t h hs ht
  obtain ⟨w, f, rfl, hword⟩ := takesFault_of_applyEvent (s := s.takeEvent) h hs ht
  exact ⟨_, rfl, rfl, hword⟩

/-- Settles O6: each condition makes the step take its fault with the word at PC, and a machine with a fault taken is
halted. -/
theorem fatalConditionsHalt : Obligations.FatalConditionsHalt := by
  intro s code hready hfetch hcond
  have htakes : ∃ f : Fault, f.code = code ∧ step s = .next (s.takeEvent.takeFault (some (wordAtPc s)) f) := by
    obtain ⟨rfl, hword, hempty⟩ | ⟨rfl, hop, hfull⟩ | ⟨rfl, hnone⟩ := hcond
    · have hd : decode s.params.loose59 (wordAtPc s) = .ok .ret := by rw [hword]; rfl
      exact ⟨_, rfl, step_of_target_error hready hfetch hd (targetOf_ret_empty (congrArg Fin.val hempty))⟩
    · have hd := decode_call s.params.loose59 hop
      exact ⟨_, rfl, step_of_target_error hready hfetch hd (targetOf_call_full _ (congrArg Fin.val hfull))⟩
    · have hd := (decodeFollowsOpcodeTable s.params.loose59 (wordAtPc s)).2.mpr hnone
      exact ⟨_, rfl, step_of_decode_error hready hfetch hd⟩
  obtain ⟨f, hcode, hstep⟩ := htakes
  exact ⟨_, _, hstep, rfl, hcode, rfl, applyEvent_of_halted (Option.some_ne_none _) .step⟩

/-- Settles O11: a step applies an event, and every event answers a next state. -/
theorem stepAlwaysAnswersNext : Obligations.StepAlwaysAnswersNext := fun s =>
  applyEvent_answers s.nextEvent s.takeEvent

/-- Settles O15: a running machine ticks in both timers, a halted one not at all. -/
theorem tickDecrementsBothTimers : Obligations.TickDecrementsBothTimers := by
  intro s
  refine ⟨_, applyEvent_tick s, fun hh => ?_, fun hh => ?_⟩
  · rw [applyTick_of_running hh]
    exact ⟨rfl, decrement_toNat _, decrement_toNat _⟩
  · exact Host.Outcome.next.inj (applyEvent_of_halted hh .tick)

/-- Settles O16: with the gate closed a key-down presses its key and opens the gate, with the gate open it presses
its key alone. -/
theorem keyDownPressesAndEndsWait : Obligations.KeyDownPressesAndEndsWait := by
  intro s k hh
  have hpress (j : KeyCode) : (s.setKey k true).keyDown j = (decide (j = k) || s.keyDown j) := by
    by_cases hj : j = k <;> simp [hj]
  refine ⟨_, applyEvent_keyDown k s, ?_⟩
  cases hw : s.waiting with
  | true =>
    rw [applyKeyDown_of_waiting hh hw]
    have hreg (r : RegIdx) : (releaseGate (s.setKey k true) k).reg r = if r = s.waitReg then keyByte k else s.reg r :=
      State.setReg_reg _ _ _ r
    refine ⟨rfl, hpress, fun _ => ⟨?_, fun r hr => (hreg r).trans (if_neg hr)⟩, fun hopen => Bool.noConfusion hopen⟩
    rw [hreg, if_pos rfl, keyByte_toNat]
  | false =>
    rw [applyKeyDown_of_open hh hw]
    exact ⟨by rw [← hw]; rfl, hpress, fun hclosed => Bool.noConfusion hclosed, fun _ _ _ => rfl⟩

/-- Settles O60: a wait with no key-down never ends, and fairness brings the larger of its timers down to 0. -/
theorem fairWaitDrainsTimers : Obligations.FairWaitDrainsTimers := by
  intro s hh hw hfair hno
  have hs : s.held = true := by simp [State.held, hh, hw]
  obtain ⟨m, hm⟩ := maxTimer_eventually_zero hs hno hfair
  exact ⟨afterSteps_of_held hs hno, m, fun n hn => (State.maxTimer_eq_zero_iff _).mp (hm n hn)⟩

/-- Settles O8: a halted machine keeps its state under every event, and taking an event off the schedule
keeps the halt. -/
theorem haltedMachineIsFrozen : Obligations.HaltedMachineIsFrozen := fun s e h =>
  ⟨applyEvent_of_halted h e, applyEvent_of_halted (s := s.takeEvent) h s.nextEvent⟩

/-- Settles O17: a key-up writes its key alone. -/
theorem keyUpReleasesOnly : Obligations.KeyUpReleasesOnly := by
  intro s k hh
  refine ⟨_, applyEvent_keyUp k s, ?_⟩
  rw [applyKeyUp_of_running hh]
  refine ⟨rfl, fun j => ?_⟩
  by_cases hj : j = k <;> simp [hj]

/-- Settles O18: the next event and the state without it, for events listed, in a round and free. -/
theorem eventsAreAppliedInOrder : Obligations.EventsAreAppliedInOrder := by
  intro s e rest
  refine ⟨fun h => ?_, fun h hs => ?_, fun h hs => ?_⟩
  · rw [step_eq, nextEvent_listed h, takeEvent_listed h]
  · rw [step_eq, nextEvent_rounds h hs, takeEvent_rounds h hs]
  · rw [step_eq, nextEvent_free h hs, takeEvent_free h hs]

end Sys2Proof.Claims
end

section
/-! SUPPORT. Proofs about the end of a run (70_reset_and_hazards.md R306): a jump to its own address leaves the machine as
it is. -/

namespace Sys2Proof.Machine

/-- The end of a run in terms of the word at PC (R306). -/
theorem State.atEndOfRun_iff (s : State) :
    s.atEndOfRun = true ↔
      s.halt = none ∧ s.waiting = false ∧ s.pc.toNat % 2 = 0 ∧ Claims.wordAtPc s = encode (.jp s.pc) := by
  simp [State.atEndOfRun, Claims.wordAtPc, and_assoc]

/-- A running machine with the gate open executes the instruction that its word at PC decodes to (R102). -/
theorem execStep_of_decode {s : State} {i : Instr} (hhalt : s.halt = none) (hopen : s.waiting = false)
    (hfetch : Claims.Fetchable s) (hd : decode s.params.loose59 (Claims.wordAtPc s) = .ok i) : execStep s = exec i s := by
  have hcycle : execStep s = cycle s := by simp [execStep, hhalt, hopen]
  have hword : fetch s = .ok (Claims.wordAtPc s) := fetch_ok s hfetch
  rw [hcycle, cycle, hword]
  simp only [hd]

/-- A jump to its own address is the identity: it writes PC alone, with the value PC has (R123). -/
theorem exec_jp_self (s : State) : exec (.jp s.pc) s = .next s :=
  exec_of_body (setPC_addr s s.pc)

end Sys2Proof.Machine

namespace Sys2Proof.Claims

open Sys2Proof.Machine

/-- Settles O58: the STEP fetches the jump at the even PC, and the jump sends PC to where it is. -/
theorem endOfRunIsFixedPoint : Obligations.EndOfRunIsFixedPoint := by
  intro s h
  obtain ⟨hhalt, hopen, heven, hword⟩ := s.atEndOfRun_iff.mp h
  have hd : decode s.params.loose59 (wordAtPc s) = .ok (.jp s.pc) := by rw [hword, decode_encode rfl]
  rw [applyEvent_step, execStep_of_decode hhalt hopen (.inl heven) hd, exec_jp_self]

end Sys2Proof.Claims
end
